-- ==== Sys2Proof/Word.lean ====
section
/-! DEFINITION. Bits, bit sequences and 16-bit words (spec rules R8, R14, R15). -/

namespace Sys2Proof

/-- A Bit: exactly one of 0 (`false`) and 1 (`true`), never undefined (R14, decision D21). -/
abbrev Bit := Bool

/-- An ordered sequence of Bits, index 0 the least-significant bit (R15). Its length is not fixed by
the type: a caller may supply a sequence of the wrong length, which is what the shape checks of R86
are about. -/
abbrev Bits := List Bit

/-- A Word of the canonical width 16 (R8), for the values whose width the spec fixes: the words of a
RAM level and the count of the Program Counter. -/
abbrev Word := BitVec 16

end Sys2Proof
end

