-- ==== Sys2Proof/Config.lean ====
section
/-! DEFINITION. The parameters of the core: the word width (R8, R11), the five RAM levels (R10), the
component kinds and what each owns (R2, R3), component names, and the system a simulation instance
is built from (R223). -/

namespace Sys2Proof

/-- `WORD`, the width of every RAM word and of the Program Counter (R8, R11). -/
abbrev wordWidth : Nat := 16

/-- The five levels of the Memory Hierarchy (R2, R10). -/
inductive Level where
  | ram8 | ram64 | ram512 | ram4k | ram16k
deriving DecidableEq, Repr

/-- A, the address width of a level (R10). -/
def Level.addrWidth : Level → Nat
  | .ram8 => 3
  | .ram64 => 6
  | .ram512 => 9
  | .ram4k => 12
  | .ram16k => 14

/-- S, the selector width of a level (R10, R137 to R141). -/
def Level.selWidth : Level → Nat
  | .ram8 => 3
  | .ram64 => 3
  | .ram512 => 3
  | .ram4k => 3
  | .ram16k => 2

/-- F, the number of children of a level (R10). -/
def Level.fanOut : Level → Nat
  | .ram8 => 8
  | .ram64 => 8
  | .ram512 => 8
  | .ram4k => 8
  | .ram16k => 4

/-- L = A - S, the width of the sub-address a level forwards to its children (R10). -/
def Level.subWidth (X : Level) : Nat := X.addrWidth - X.selWidth

/-- The selector widths on the way from a level down to one Register, the level's own first (R83, R84).
Its length is the level's number of decode levels (R85). -/
def Level.selectors : Level → List Nat
  | .ram8 => [3]
  | .ram64 => [3, 3]
  | .ram512 => [3, 3, 3]
  | .ram4k => [3, 3, 3, 3]
  | .ram16k => [2, 3, 3, 3, 3]

/-- The component kinds a caller may construct beside the Clock (R2, R91). `reg n` is an N-bit Register
of width n, the construction parameter `REG_WIDTH_N` (R9, decision D10). -/
inductive Kind where
  | cell
  | bit
  | reg (n : Nat)
  | ram (X : Level)
  | pc
deriving DecidableEq, Repr

/-- The kind of the children of a RAM level: 16-bit Registers at the leaf, the next smaller level
otherwise (R3, R10, R137 to R141). -/
def Level.childKind : Level → Kind
  | .ram8 => .reg wordWidth
  | .ram64 => .ram .ram8
  | .ram512 => .ram .ram64
  | .ram4k => .ram .ram512
  | .ram16k => .ram .ram4k

/-- What a component owns under child index k (R3): a Loadable Bit its Cell, a Register its N Loadable
Bits, a RAM level its F children, the Program Counter its 16-bit Register. -/
def Kind.child : Kind → Nat → Option Kind
  | .cell, _ => none
  | .bit, k => if k = 0 then some .cell else none
  | .reg n, k => if k < n then some .bit else none
  | .ram X, k => if k < X.fanOut then some X.childKind else none
  | .pc, k => if k = 0 then some (.reg wordWidth) else none

/-- The kind of the component reached from a component of kind K along a path of child indices. -/
def Kind.along : Kind → List Nat → Option Kind
  | K, [] => some K
  | K, k :: path =>
    match K.child k with
    | some K' => K'.along path
    | none => none

/-- The name of a component: the number of a top-level component in construction order, and the path of
child indices from it. The empty path names the top-level component itself, any other path a component
it owns (R3, R91). -/
structure Ref where
  top : Nat
  path : List Nat
deriving DecidableEq, Repr

/-- The name of a top-level component. -/
abbrev Ref.ofTop (k : Nat) : Ref := ⟨k, []⟩

/-- `REG_WIDTH_N` of the Register in the system that `State.reset` holds; 16, the width at which the
opcode table writes REG.SET_INPUT (R9, decision D10). DESIGN CHOICE (log 2). -/
def regWidth : Nat := 16

/-- The components of the system that `State.reset` holds, in construction order: one of each kind.
DESIGN CHOICE (log 2): the spec leaves the assembly of a system to the caller (R223). -/
def standardSystem : List Kind :=
  [.cell, .bit, .reg regWidth, .ram .ram8, .ram .ram64, .ram .ram512, .ram .ram4k, .ram .ram16k, .pc]

end Sys2Proof
end

