-- ==== Sys2Proof/Machine/Operands.lean ====
section
/-! DEFINITION. Operands and the combinational functions the core needs: the unsigned and two's-complement
readings of a bit sequence and their inverses (R16), the primitives `mux`, `dmux_F`, `select_F` and `inc16`
(R18), and the split of a RAM address (R83). -/

namespace Sys2Proof.Machine

open Sys2Proof

/-- `uint(w)`, the sum of `w[i] * 2^i` (R16). -/
def uint : Bits → Nat
  | [] => 0
  | b :: bs => b.toNat + 2 * uint bs

/-- `word_n(k)` for `0 <= k < 2^n`: the n bits of k, least-significant first (R16). -/
def natBits : Nat → Nat → Bits
  | 0, _ => []
  | n + 1, k => (k % 2 == 1) :: natBits n (k / 2)

/-- `sint(w) = uint(w) - 2^n * w[n-1]` (R16). -/
def sint (bs : Bits) : Int :=
  (uint bs : Int) - if bs.getLastD false then (2 ^ bs.length : Int) else 0

/-- `word_n(k)` for an integer k (R16): the n-bit sequence with `uint = k` or with `sint = k`; `none`,
which stands for the refusal of the conversion, outside `-2^(n-1)` to `2^n - 1` (decision D13). -/
def intBits (n : Nat) (k : Int) : Option Bits :=
  if 0 ≤ k then
    if k < (2 ^ n : Int) then some (natBits n k.toNat) else none
  else if -(2 ^ n : Int) ≤ 2 * k then some (natBits n (k + 2 ^ n).toNat) else none

/-- `zext_n(v)`: v extended to n bits with zero bits (R16). -/
def zext (n : Nat) (bs : Bits) : Bits := bs ++ List.replicate (n - bs.length) false

/-- `sext_n(v)`: v extended to n bits with copies of its top bit (R16). -/
def sext (n : Nat) (bs : Bits) : Bits := bs ++ List.replicate (n - bs.length) (bs.getLastD false)

/-- The Word held by a sequence of 16 Bits. -/
def wordOfBits (bs : Bits) : Word := BitVec.ofNat wordWidth (uint bs)

/-- The 16 Bits of a Word, index 0 the least-significant bit (R15). -/
def bitsOfWord (w : Word) : Bits := natBits wordWidth w.toNat

/-- `mux(sel, a, b)`: b if sel is 1, else a (R18). -/
def mux {α : Type} (sel : Bit) (a b : α) : α := if sel then b else a

/-- Line k of `dmux_F(x, s)`: `x and (uint(s) == k)` (R18). -/
def dmuxLine (x : Bit) (s : Bits) (k : Nat) : Bit := x && uint s == k

/-- `dmux_F(x, s)`: the F lines (R18). -/
def dmux (F : Nat) (x : Bit) (s : Bits) : List Bit := (List.range F).map (dmuxLine x s)

/-- `select_F(s, v_0 .. v_(F-1))`: the fan-in multiplexer, `v_(uint(s))` (R18). `default` stands where the
list has no such entry, which no selector of log2(F) bits reaches. -/
def select {α : Type} (s : Bits) (vs : List α) (default : α) : α := vs.getD (uint s) default

/-- `inc16(w) = word_16((uint(w) + 1) mod 2^16)` (R18). -/
def inc16 (w : Word) : Word := w + 1

/-- The selector `a[A-1:L]` of an address (R83). -/
def addrSel (L : Nat) (a : Bits) : Bits := a.drop L

/-- The sub-address `a[L-1:0]` of an address (R83). -/
def addrSub (L : Nat) (a : Bits) : Bits := a.take L

end Sys2Proof.Machine
end

