-- ==== Sys2Proof/Machine/Flags.lean ====
section
/-! DEFINITION. The core has no flags and no condition codes (R45), so no flag computation stands here. The one
condition the core computes is the rising-edge test of R19. -/

namespace Sys2Proof.Machine

open Sys2Proof

/-- `rising(prev, level)`: true exactly when `prev == 0` and `level == 1` (R19). -/
def rising (prev level : Bit) : Bool := !prev && level

end Sys2Proof.Machine
end

