-- ==== Sys2Proof/Syntax.lean ====
section
/-! DEFINITION. The interface operations of the core, one constructor per row of spec/opcode_table.json
(R7, R81). `c` is the component the operation is applied to (R80); the operands are those of R81, a
Word or address operand as the bit sequence the caller supplies, of whatever length (R86). -/

namespace Sys2Proof

/-- The operations of the core (R81). -/
inductive Instr where
  | cellSetInput (c : Ref) (d : Bit)
  | cellRecompute (c : Ref)
  | cellGetOutput (c : Ref)
  | cellOnClock (c : Ref) (level : Bit)
  | bitSetInput (c : Ref) (value load : Bit)
  | bitRecompute (c : Ref)
  | bitGetOutput (c : Ref)
  | bitOnClock (c : Ref) (level : Bit)
  | regSetInput (c : Ref) (bits : Bits) (load : Bit)
  | regRecompute (c : Ref)
  | regGetOutput (c : Ref)
  | regOnClock (c : Ref) (level : Bit)
  | ram8SetInput (c : Ref) (word address : Bits) (load : Bit)
  | ram8Recompute (c : Ref)
  | ram8GetOutput (c : Ref) (address : Bits)
  | ram8OnClock (c : Ref) (level : Bit)
  | ram8IndexRead (c : Ref) (address : Bits)
  | ram8IndexWrite (c : Ref) (address word : Bits)
  | ram64SetInput (c : Ref) (word address : Bits) (load : Bit)
  | ram64Recompute (c : Ref)
  | ram64GetOutput (c : Ref) (address : Bits)
  | ram64OnClock (c : Ref) (level : Bit)
  | ram64IndexRead (c : Ref) (address : Bits)
  | ram64IndexWrite (c : Ref) (address word : Bits)
  | ram512SetInput (c : Ref) (word address : Bits) (load : Bit)
  | ram512Recompute (c : Ref)
  | ram512GetOutput (c : Ref) (address : Bits)
  | ram512OnClock (c : Ref) (level : Bit)
  | ram512IndexRead (c : Ref) (address : Bits)
  | ram512IndexWrite (c : Ref) (address word : Bits)
  | ram4kSetInput (c : Ref) (word address : Bits) (load : Bit)
  | ram4kRecompute (c : Ref)
  | ram4kGetOutput (c : Ref) (address : Bits)
  | ram4kOnClock (c : Ref) (level : Bit)
  | ram4kIndexRead (c : Ref) (address : Bits)
  | ram4kIndexWrite (c : Ref) (address word : Bits)
  | ram16kSetInput (c : Ref) (word address : Bits) (load : Bit)
  | ram16kRecompute (c : Ref)
  | ram16kGetOutput (c : Ref) (address : Bits)
  | ram16kOnClock (c : Ref) (level : Bit)
  | ram16kIndexRead (c : Ref) (address : Bits)
  | ram16kIndexWrite (c : Ref) (address word : Bits)
  | pcSetInput (c : Ref) (inputValue : Bits) (load increment reset : Bit)
  | pcRecompute (c : Ref)
  | pcGetOutput (c : Ref)
  | pcOnClock (c : Ref) (level : Bit)
  | clockSubscribe (components : List Ref)
  | clockTick
  | clockElapsedTicks
deriving DecidableEq, Repr

/-- The operation X.SET_INPUT of the RAM level X (R81). -/
def Level.setInput (X : Level) (c : Ref) (word address : Bits) (load : Bit) : Instr :=
  match X with
  | .ram8 => .ram8SetInput c word address load
  | .ram64 => .ram64SetInput c word address load
  | .ram512 => .ram512SetInput c word address load
  | .ram4k => .ram4kSetInput c word address load
  | .ram16k => .ram16kSetInput c word address load

/-- The operation X.RECOMPUTE of the RAM level X (R81). -/
def Level.recompute (X : Level) (c : Ref) : Instr :=
  match X with
  | .ram8 => .ram8Recompute c
  | .ram64 => .ram64Recompute c
  | .ram512 => .ram512Recompute c
  | .ram4k => .ram4kRecompute c
  | .ram16k => .ram16kRecompute c

/-- The operation X.GET_OUTPUT of the RAM level X (R81). -/
def Level.getOutput (X : Level) (c : Ref) (address : Bits) : Instr :=
  match X with
  | .ram8 => .ram8GetOutput c address
  | .ram64 => .ram64GetOutput c address
  | .ram512 => .ram512GetOutput c address
  | .ram4k => .ram4kGetOutput c address
  | .ram16k => .ram16kGetOutput c address

/-- The operation X.ON_CLOCK of the RAM level X (R81). -/
def Level.onClock (X : Level) (c : Ref) (level : Bit) : Instr :=
  match X with
  | .ram8 => .ram8OnClock c level
  | .ram64 => .ram64OnClock c level
  | .ram512 => .ram512OnClock c level
  | .ram4k => .ram4kOnClock c level
  | .ram16k => .ram16kOnClock c level

/-- The operation X.INDEX_READ of the RAM level X (R81). -/
def Level.indexRead (X : Level) (c : Ref) (address : Bits) : Instr :=
  match X with
  | .ram8 => .ram8IndexRead c address
  | .ram64 => .ram64IndexRead c address
  | .ram512 => .ram512IndexRead c address
  | .ram4k => .ram4kIndexRead c address
  | .ram16k => .ram16kIndexRead c address

/-- The operation X.INDEX_WRITE of the RAM level X (R81). -/
def Level.indexWrite (X : Level) (c : Ref) (address word : Bits) : Instr :=
  match X with
  | .ram8 => .ram8IndexWrite c address word
  | .ram64 => .ram64IndexWrite c address word
  | .ram512 => .ram512IndexWrite c address word
  | .ram4k => .ram4kIndexWrite c address word
  | .ram16k => .ram16kIndexWrite c address word

end Sys2Proof
end

