-- ==== Sys2Proof/WellFormed.lean ====
section
/-! DEFINITION. The static checks of an operation: every component it names is a top-level one (R21, R180,
R186; decisions D11, D12), and every operand whose length its mnemonic fixes has that length (R86). The
length of REG.SET_INPUT's `bits` is the construction parameter of the component (R9), so the machine checks
it, not this file. An operation that fails these checks still has a meaning in the
machine: the condition InvalidInputShape, or a refusal. -/

namespace Sys2Proof

/-- The components an operation names. -/
def Instr.refs (i : Instr) : List Ref :=
  match i with
  | .cellSetInput c _ => [c]
  | .cellRecompute c => [c]
  | .cellGetOutput c => [c]
  | .cellOnClock c _ => [c]
  | .bitSetInput c _ _ => [c]
  | .bitRecompute c => [c]
  | .bitGetOutput c => [c]
  | .bitOnClock c _ => [c]
  | .regSetInput c _ _ => [c]
  | .regRecompute c => [c]
  | .regGetOutput c => [c]
  | .regOnClock c _ => [c]
  | .ram8SetInput c _ _ _ => [c]
  | .ram8Recompute c => [c]
  | .ram8GetOutput c _ => [c]
  | .ram8OnClock c _ => [c]
  | .ram8IndexRead c _ => [c]
  | .ram8IndexWrite c _ _ => [c]
  | .ram64SetInput c _ _ _ => [c]
  | .ram64Recompute c => [c]
  | .ram64GetOutput c _ => [c]
  | .ram64OnClock c _ => [c]
  | .ram64IndexRead c _ => [c]
  | .ram64IndexWrite c _ _ => [c]
  | .ram512SetInput c _ _ _ => [c]
  | .ram512Recompute c => [c]
  | .ram512GetOutput c _ => [c]
  | .ram512OnClock c _ => [c]
  | .ram512IndexRead c _ => [c]
  | .ram512IndexWrite c _ _ => [c]
  | .ram4kSetInput c _ _ _ => [c]
  | .ram4kRecompute c => [c]
  | .ram4kGetOutput c _ => [c]
  | .ram4kOnClock c _ => [c]
  | .ram4kIndexRead c _ => [c]
  | .ram4kIndexWrite c _ _ => [c]
  | .ram16kSetInput c _ _ _ => [c]
  | .ram16kRecompute c => [c]
  | .ram16kGetOutput c _ => [c]
  | .ram16kOnClock c _ => [c]
  | .ram16kIndexRead c _ => [c]
  | .ram16kIndexWrite c _ _ => [c]
  | .pcSetInput c _ _ _ _ => [c]
  | .pcRecompute c => [c]
  | .pcGetOutput c => [c]
  | .pcOnClock c _ => [c]
  | .clockSubscribe cs => cs
  | .clockTick => []
  | .clockElapsedTicks => []

/-- The operands of the lengths their mnemonic declares (R86). -/
def Instr.shapesOk (i : Instr) : Bool :=
  match i with
  | .cellSetInput _ _ => true
  | .cellRecompute _ => true
  | .cellGetOutput _ => true
  | .cellOnClock _ _ => true
  | .bitSetInput _ _ _ => true
  | .bitRecompute _ => true
  | .bitGetOutput _ => true
  | .bitOnClock _ _ => true
  | .regSetInput _ _ _ => true
  | .regRecompute _ => true
  | .regGetOutput _ => true
  | .regOnClock _ _ => true
  | .ram8SetInput _ word address _ => word.length == wordWidth && address.length == Level.ram8.addrWidth
  | .ram8Recompute _ => true
  | .ram8GetOutput _ address => address.length == Level.ram8.addrWidth
  | .ram8OnClock _ _ => true
  | .ram8IndexRead _ address => address.length == Level.ram8.addrWidth
  | .ram8IndexWrite _ address word => word.length == wordWidth && address.length == Level.ram8.addrWidth
  | .ram64SetInput _ word address _ => word.length == wordWidth && address.length == Level.ram64.addrWidth
  | .ram64Recompute _ => true
  | .ram64GetOutput _ address => address.length == Level.ram64.addrWidth
  | .ram64OnClock _ _ => true
  | .ram64IndexRead _ address => address.length == Level.ram64.addrWidth
  | .ram64IndexWrite _ address word => word.length == wordWidth && address.length == Level.ram64.addrWidth
  | .ram512SetInput _ word address _ => word.length == wordWidth && address.length == Level.ram512.addrWidth
  | .ram512Recompute _ => true
  | .ram512GetOutput _ address => address.length == Level.ram512.addrWidth
  | .ram512OnClock _ _ => true
  | .ram512IndexRead _ address => address.length == Level.ram512.addrWidth
  | .ram512IndexWrite _ address word => word.length == wordWidth && address.length == Level.ram512.addrWidth
  | .ram4kSetInput _ word address _ => word.length == wordWidth && address.length == Level.ram4k.addrWidth
  | .ram4kRecompute _ => true
  | .ram4kGetOutput _ address => address.length == Level.ram4k.addrWidth
  | .ram4kOnClock _ _ => true
  | .ram4kIndexRead _ address => address.length == Level.ram4k.addrWidth
  | .ram4kIndexWrite _ address word => word.length == wordWidth && address.length == Level.ram4k.addrWidth
  | .ram16kSetInput _ word address _ => word.length == wordWidth && address.length == Level.ram16k.addrWidth
  | .ram16kRecompute _ => true
  | .ram16kGetOutput _ address => address.length == Level.ram16k.addrWidth
  | .ram16kOnClock _ _ => true
  | .ram16kIndexRead _ address => address.length == Level.ram16k.addrWidth
  | .ram16kIndexWrite _ address word => word.length == wordWidth && address.length == Level.ram16k.addrWidth
  | .pcSetInput _ inputValue _ _ _ => inputValue.length == wordWidth
  | .pcRecompute _ => true
  | .pcGetOutput _ => true
  | .pcOnClock _ _ => true
  | .clockSubscribe _ => true
  | .clockTick => true
  | .clockElapsedTicks => true

/-- A well-formed operation: it names top-level components only, and its operands have the declared
lengths. -/
def Instr.wellFormed (i : Instr) : Bool :=
  i.refs.all (fun c => c.path == []) && i.shapesOk

end Sys2Proof
end

