-- ==== Sys2Proof/Decode.lean ====
section
/-! DEFINITION. The form in which a caller issues an operation, its decoder and its encoder. The core has no
instruction words (R80): an operation is selected by the component it is applied to and by its name, and its
operands are a bundle of bits, which R90 packs with bit 0 first. A `Call` is exactly that. Its container (the two
enumerations, the lengths written beside the bundle, the table word at the end of this file) is the model's:
DESIGN CHOICE (log 3). -/

namespace Sys2Proof

/-- The first part of a mnemonic: the kind of component the operation belongs to (R81). -/
inductive Family where
  | cell | bit | reg
  | ram (X : Level)
  | pc | clock
deriving DecidableEq, Repr

/-- The name of an operation, as the interfaces name it (R7). There is no separate name for RECOMPUTE: it is
`set_input` with its inputs omitted (R88). -/
inductive OpName where
  | setInput | getOutput | onClock | indexRead | indexWrite | subscribe | tick | elapsedTicks
deriving DecidableEq, Repr

/-- A caller's call of an operation: the components it names, and its operands as one bundle in the layout of
R90, index 0 the least-significant bit. `lens` are the lengths of the operands that are bit sequences, from bit
0 upwards; the single Bits follow them. A raw value of the bundle should be 0 or 1 (R14). -/
structure Call where
  family : Family
  op : OpName
  refs : List Ref
  lens : List Nat
  bundle : List Nat
deriving DecidableEq, Repr

/-- Why the decoder refuses a call. Each is a use outside the contract of the core (R81, R206), and refusing
it is safe: no claim about a next state is made of it. -/
inductive Reject where
  /-- The family has no operation of this name: the operations are exactly those of R81. -/
  | unknownOperation
  /-- The call does not name the one component its operation is applied to (none, for CLOCK.TICK and
  CLOCK.ELAPSED_TICKS). -/
  | componentCount
  /-- The call supplies some operands and omits others, or supplies more than there are (R88, decision D5). -/
  | partialOperands
  /-- A value other than 0 or 1 stands where a Bit is expected (R14, decision D21). -/
  | notABit
deriving DecidableEq, Repr

/-! ### Reading a bundle -/

/-- Raw values as Bits; `none` where a value is neither 0 nor 1 (R14). -/
def rawBits : List Nat → Option Bits
  | [] => some []
  | v :: vs =>
    if v < 2 then
      match rawBits vs with
      | some bs => some ((v == 1) :: bs)
      | none => none
    else none

/-- The bit sequences of the given lengths from bit 0 upwards, and the Bits left over. -/
def splitBundle : List Nat → Bits → List Bits × Bits
  | [], bs => ([], bs)
  | n :: ns, bs => (bs.take n :: (splitBundle ns (bs.drop n)).1, (splitBundle ns (bs.drop n)).2)

/-- The operands of a call that must supply `nSeq` bit sequences and `nBit` single Bits, all of them (R88). -/
def Call.operands (c : Call) (nSeq nBit : Nat) : Except Reject (List Bits × Bits) :=
  if c.lens.length = nSeq ∧ c.bundle.length = c.lens.sum + nBit then
    match rawBits c.bundle with
    | some bs => .ok (splitBundle c.lens bs)
    | none => .error .notABit
  else .error .partialOperands

/-- The one component a call names. -/
def Call.ref (c : Call) : Except Reject Ref :=
  match c.refs with
  | [r] => .ok r
  | _ => .error .componentCount

/-- Whether the inputs are omitted whole (R88). -/
def Call.omitted (c : Call) : Bool := c.lens == [] && c.bundle == []

/-! ### One reader per bundle shape of R90 -/

/-- The empty bundle. -/
def readNone (c : Call) (mk : Ref → Instr) : Except Reject Instr :=
  match c.ref, c.operands 0 0 with
  | .ok r, .ok _ => .ok (mk r)
  | .error e, _ => .error e
  | _, .error e => .error e

/-- `D` or `V`: [0] a Bit. -/
def readBit (c : Call) (mk : Ref → Bit → Instr) : Except Reject Instr :=
  match c.ref, c.operands 0 1 with
  | .ok r, .ok (_, [b]) => .ok (mk r b)
  | .error e, _ => .error e
  | _, .error e => .error e
  | _, _ => .error .partialOperands

/-- `LV`: [1] load, [0] value. -/
def readValueLoad (c : Call) (mk : Ref → Bit → Bit → Instr) : Except Reject Instr :=
  match c.ref, c.operands 0 2 with
  | .ok r, .ok (_, [value, load]) => .ok (mk r value load)
  | .error e, _ => .error e
  | _, .error e => .error e
  | _, _ => .error .partialOperands

/-- `L` and N x `B`: [N] load, [N-1:0] bits. -/
def readBitsLoad (c : Call) (mk : Ref → Bits → Bit → Instr) : Except Reject Instr :=
  match c.ref, c.operands 1 1 with
  | .ok r, .ok ([bits], [load]) => .ok (mk r bits load)
  | .error e, _ => .error e
  | _, .error e => .error e
  | _, _ => .error .partialOperands

/-- `L`, A x `A`, 16 x `W`: [A+16] load, [A+15:16] address, [15:0] word. -/
def readWordAddressLoad (c : Call) (mk : Ref → Bits → Bits → Bit → Instr) : Except Reject Instr :=
  match c.ref, c.operands 2 1 with
  | .ok r, .ok ([word, address], [load]) => .ok (mk r word address load)
  | .error e, _ => .error e
  | _, .error e => .error e
  | _, _ => .error .partialOperands

/-- A x `A`: [A-1:0] address. -/
def readAddress (c : Call) (mk : Ref → Bits → Instr) : Except Reject Instr :=
  match c.ref, c.operands 1 0 with
  | .ok r, .ok ([address], []) => .ok (mk r address)
  | .error e, _ => .error e
  | _, .error e => .error e
  | _, _ => .error .partialOperands

/-- A x `A`, 16 x `W`: [A+15:16] address, [15:0] word; the operation's operands are address, word. -/
def readAddressWord (c : Call) (mk : Ref → Bits → Bits → Instr) : Except Reject Instr :=
  match c.ref, c.operands 2 0 with
  | .ok r, .ok ([word, address], []) => .ok (mk r address word)
  | .error e, _ => .error e
  | _, .error e => .error e
  | _, _ => .error .partialOperands

/-- `RLI` and 16 x `W`: [18] reset, [17] load, [16] increment, [15:0] input_value; the operation's operands are
input_value, load, increment, reset (decision D27). -/
def readPcInputs (c : Call) (mk : Ref → Bits → Bit → Bit → Bit → Instr) : Except Reject Instr :=
  match c.ref, c.operands 1 3 with
  | .ok r, .ok ([inputValue], [increment, load, reset]) => .ok (mk r inputValue load increment reset)
  | .error e, _ => .error e
  | _, .error e => .error e
  | _, _ => .error .partialOperands

/-- A Clock operation with no operand and no component. -/
def readClock (c : Call) (i : Instr) : Except Reject Instr :=
  match c.refs, c.operands 0 0 with
  | [], .ok _ => .ok i
  | _ :: _, _ => .error .componentCount
  | _, .error e => .error e

/-- CLOCK.SUBSCRIBE: a list of component names, no bits. -/
def readSubscribe (c : Call) : Except Reject Instr :=
  match c.operands 0 0 with
  | .ok _ => .ok (.clockSubscribe c.refs)
  | .error e => .error e

/-! ### The decoder -/

/-- The operation a call stands for, or why it is refused. Total on every call. -/
def decode (c : Call) : Except Reject Instr :=
  match c.family, c.op with
  | .cell, .setInput => if c.omitted then readNone c .cellRecompute else readBit c .cellSetInput
  | .cell, .getOutput => readNone c .cellGetOutput
  | .cell, .onClock => readBit c .cellOnClock
  | .bit, .setInput => if c.omitted then readNone c .bitRecompute else readValueLoad c .bitSetInput
  | .bit, .getOutput => readNone c .bitGetOutput
  | .bit, .onClock => readBit c .bitOnClock
  | .reg, .setInput => if c.omitted then readNone c .regRecompute else readBitsLoad c .regSetInput
  | .reg, .getOutput => readNone c .regGetOutput
  | .reg, .onClock => readBit c .regOnClock
  | .ram X, .setInput => if c.omitted then readNone c X.recompute else readWordAddressLoad c X.setInput
  | .ram X, .getOutput => readAddress c X.getOutput
  | .ram X, .onClock => readBit c X.onClock
  | .ram X, .indexRead => readAddress c X.indexRead
  | .ram X, .indexWrite => readAddressWord c X.indexWrite
  | .pc, .setInput => if c.omitted then readNone c .pcRecompute else readPcInputs c .pcSetInput
  | .pc, .getOutput => readNone c .pcGetOutput
  | .pc, .onClock => readBit c .pcOnClock
  | .clock, .subscribe => readSubscribe c
  | .clock, .tick => readClock c .clockTick
  | .clock, .elapsedTicks => readClock c .clockElapsedTicks
  | _, _ => .error .unknownOperation

/-! ### The encoder -/

/-- A call with its bundle packed as R90 packs it: the bit sequences from bit 0 upwards, then the single Bits. -/
def packCall (family : Family) (op : OpName) (refs : List Ref) (seqs : List Bits) (bits : Bits) : Call :=
  { family := family, op := op, refs := refs, lens := seqs.map List.length,
    bundle := (seqs.flatten ++ bits).map Bool.toNat }

/-- The call of an operation, written from the layouts of R90 and the rows of spec/opcode_table.json. -/
def encode (i : Instr) : Call :=
  match i with
  | .cellSetInput c d => packCall .cell .setInput [c] [] [d]
  | .cellRecompute c => packCall .cell .setInput [c] [] []
  | .cellGetOutput c => packCall .cell .getOutput [c] [] []
  | .cellOnClock c level => packCall .cell .onClock [c] [] [level]
  | .bitSetInput c value load => packCall .bit .setInput [c] [] [value, load]
  | .bitRecompute c => packCall .bit .setInput [c] [] []
  | .bitGetOutput c => packCall .bit .getOutput [c] [] []
  | .bitOnClock c level => packCall .bit .onClock [c] [] [level]
  | .regSetInput c bits load => packCall .reg .setInput [c] [bits] [load]
  | .regRecompute c => packCall .reg .setInput [c] [] []
  | .regGetOutput c => packCall .reg .getOutput [c] [] []
  | .regOnClock c level => packCall .reg .onClock [c] [] [level]
  | .ram8SetInput c word address load => packCall (.ram .ram8) .setInput [c] [word, address] [load]
  | .ram8Recompute c => packCall (.ram .ram8) .setInput [c] [] []
  | .ram8GetOutput c address => packCall (.ram .ram8) .getOutput [c] [address] []
  | .ram8OnClock c level => packCall (.ram .ram8) .onClock [c] [] [level]
  | .ram8IndexRead c address => packCall (.ram .ram8) .indexRead [c] [address] []
  | .ram8IndexWrite c address word => packCall (.ram .ram8) .indexWrite [c] [word, address] []
  | .ram64SetInput c word address load => packCall (.ram .ram64) .setInput [c] [word, address] [load]
  | .ram64Recompute c => packCall (.ram .ram64) .setInput [c] [] []
  | .ram64GetOutput c address => packCall (.ram .ram64) .getOutput [c] [address] []
  | .ram64OnClock c level => packCall (.ram .ram64) .onClock [c] [] [level]
  | .ram64IndexRead c address => packCall (.ram .ram64) .indexRead [c] [address] []
  | .ram64IndexWrite c address word => packCall (.ram .ram64) .indexWrite [c] [word, address] []
  | .ram512SetInput c word address load => packCall (.ram .ram512) .setInput [c] [word, address] [load]
  | .ram512Recompute c => packCall (.ram .ram512) .setInput [c] [] []
  | .ram512GetOutput c address => packCall (.ram .ram512) .getOutput [c] [address] []
  | .ram512OnClock c level => packCall (.ram .ram512) .onClock [c] [] [level]
  | .ram512IndexRead c address => packCall (.ram .ram512) .indexRead [c] [address] []
  | .ram512IndexWrite c address word => packCall (.ram .ram512) .indexWrite [c] [word, address] []
  | .ram4kSetInput c word address load => packCall (.ram .ram4k) .setInput [c] [word, address] [load]
  | .ram4kRecompute c => packCall (.ram .ram4k) .setInput [c] [] []
  | .ram4kGetOutput c address => packCall (.ram .ram4k) .getOutput [c] [address] []
  | .ram4kOnClock c level => packCall (.ram .ram4k) .onClock [c] [] [level]
  | .ram4kIndexRead c address => packCall (.ram .ram4k) .indexRead [c] [address] []
  | .ram4kIndexWrite c address word => packCall (.ram .ram4k) .indexWrite [c] [word, address] []
  | .ram16kSetInput c word address load => packCall (.ram .ram16k) .setInput [c] [word, address] [load]
  | .ram16kRecompute c => packCall (.ram .ram16k) .setInput [c] [] []
  | .ram16kGetOutput c address => packCall (.ram .ram16k) .getOutput [c] [address] []
  | .ram16kOnClock c level => packCall (.ram .ram16k) .onClock [c] [] [level]
  | .ram16kIndexRead c address => packCall (.ram .ram16k) .indexRead [c] [address] []
  | .ram16kIndexWrite c address word => packCall (.ram .ram16k) .indexWrite [c] [word, address] []
  | .pcSetInput c inputValue load increment reset => packCall .pc .setInput [c] [inputValue] [increment, load, reset]
  | .pcRecompute c => packCall .pc .setInput [c] [] []
  | .pcGetOutput c => packCall .pc .getOutput [c] [] []
  | .pcOnClock c level => packCall .pc .onClock [c] [] [level]
  | .clockSubscribe cs => packCall .clock .subscribe cs [] []
  | .clockTick => packCall .clock .tick [] [] []
  | .clockElapsedTicks => packCall .clock .elapsedTicks [] [] []

/-! ### One number for a call

The rows of spec/opcode_table.json give the operand bits of an operation and no bit that selects it, so a bare
bundle names no operation. A table word is the model's container for one (DESIGN CHOICE, log 3): bits [7:0] hold
the row's number in the table, counted from 1 (0 selects nothing); bits [15:8] the number of the top-level
component; the bundle of R90, of the declared lengths (N = 16 for a Register), stands from bit 16 upwards. -/

/-- The rows of the table that belong to a family with the four sequential-component operations and whose
SET_INPUT has these sequence lengths and this many single Bits. -/
def componentRows (f : Family) (lens : List Nat) (nBit : Nat) : List (Family × OpName × List Nat × Nat) :=
  [(f, .setInput, lens, lens.sum + nBit), (f, .setInput, [], 0), (f, .getOutput, [], 0), (f, .onClock, [], 1)]

/-- The six rows of a RAM level. -/
def ramRows (X : Level) : List (Family × OpName × List Nat × Nat) :=
  [(.ram X, .setInput, [wordWidth, X.addrWidth], wordWidth + X.addrWidth + 1),
   (.ram X, .setInput, [], 0),
   (.ram X, .getOutput, [X.addrWidth], X.addrWidth),
   (.ram X, .onClock, [], 1),
   (.ram X, .indexRead, [X.addrWidth], X.addrWidth),
   (.ram X, .indexWrite, [wordWidth, X.addrWidth], wordWidth + X.addrWidth)]

/-- The rows of spec/opcode_table.json in its order: family, operation, lengths of the bit sequences, width of the
bundle. -/
def tableRows : List (Family × OpName × List Nat × Nat) :=
  componentRows .cell [] 1 ++ componentRows .bit [] 2 ++ componentRows .reg [wordWidth] 1 ++
  ramRows .ram8 ++ ramRows .ram64 ++ ramRows .ram512 ++ ramRows .ram4k ++ ramRows .ram16k ++
  componentRows .pc [wordWidth] 3 ++
  [(.clock, .subscribe, [], 0), (.clock, .tick, [], 0), (.clock, .elapsedTicks, [], 0)]

/-- The call a table word stands for. A word that selects no row gives a call that the decoder refuses as no
operation of the core. -/
def callOfTableWord (nbits w : Nat) : Call :=
  let v := w % 2 ^ nbits
  let c := Ref.ofTop (v / 2 ^ 8 % 2 ^ 8)
  match v % 2 ^ 8 with
  | 0 => { family := .clock, op := .setInput, refs := [], lens := [], bundle := [] }
  | row + 1 =>
    match tableRows[row]? with
    | none => { family := .clock, op := .setInput, refs := [], lens := [], bundle := [] }
    | some (f, op, lens, width) =>
      { family := f, op := op
        refs := if f = .clock ∧ op ≠ .subscribe then [] else [c]
        lens := lens
        bundle := (Machine.natBits width (v / 2 ^ 16)).map Bool.toNat }

/-- The operation the decoder reads from a table word. -/
def decodeTableWord (nbits w : Nat) : Option Instr :=
  match decode (callOfTableWord nbits w) with
  | .ok i => some i
  | .error _ => none

end Sys2Proof
end

