-- ==== Sys2Proof/Machine/State.lean ====
section
/-! DEFINITION. The state of one simulation instance (R2, R12, R30 to R42): its top-level components, its Clock, and
the caller's side of the interface (the calls not yet performed and what the last one returned). Construction is the
core's only reset (R220). -/

namespace Sys2Proof.Machine

open Sys2Proof

/-- An Edge-Triggered Cell (R30): `pending_input`, `stored`, `previous_clock_level`. -/
structure Cell where
  pending : Bit
  stored : Bit
  prev : Bit
deriving DecidableEq, Repr

/-- A Loadable Bit (R33): the recorded inputs and the Cell it owns. -/
structure LoadableBit where
  recValue : Bit
  recLoad : Bit
  cell : Cell
deriving DecidableEq, Repr

/-- An N-bit Register (R35): its N Loadable Bits, `bit[i]` at index i. It holds no state of its own. -/
structure Register where
  bits : List LoadableBit
deriving DecidableEq, Repr

/-- The words of a RAM level (R38) as (address, word) pairs: addresses strictly rising, and no entry equal to the word 0
that an unlisted address reads as. The addressable unit is the 16-bit Word (R61, R63). -/
abbrev Memory := List (Nat × Word)

/-- A RAM level in the flat view of R49 and R142: the recorded inputs of R37, the word array of R38, and the one `prev`
that stands for the `previous_clock_level` of every Cell below it (R48). The tree of children it stands for, with every
recorded input and every Cell inside it, is `ramTree` of Machine/Tree.lean. DEDUCED (log 4). -/
structure Ram where
  level : Level
  recWord : Word
  recAddress : Bits
  recLoad : Bit
  mem : Memory
  prev : Bit
deriving DecidableEq, Repr

/-- A Program Counter (R40): the recorded inputs and the 16-bit Register it owns. -/
structure Pc where
  recInputValue : Word
  recLoad : Bit
  recIncrement : Bit
  recReset : Bit
  reg : Register
deriving DecidableEq, Repr

/-- A top-level component. -/
inductive Component where
  | cell (c : Cell)
  | bit (b : LoadableBit)
  | reg (r : Register)
  | ram (m : Ram)
  | pc (p : Pc)
deriving DecidableEq, Repr

/-- A Clock (R42): the tick count, unbounded, and the subscribers in registration order, each the number of a top-level
component; repetitions are allowed (decision D28). -/
structure Clock where
  elapsedTicks : Nat
  subscribers : List Nat
deriving DecidableEq, Repr

/-- What a call returns to its caller: nothing, the value of the "out" column of R81, or the condition InvalidInputShape
with the expected and actual lengths (R200, R201, decision D17). -/
inductive Reply where
  | done
  | pair (q nq : Bit)
  | bit (out : Bit)
  | bits (out : Bits)
  | count (n : Nat)
  | invalidInputShape (expected actual : Nat)
deriving DecidableEq, Repr

/-- The machine: one simulation instance and its caller's side. -/
structure State where
  /-- The top-level components, in construction order (R223). -/
  components : List Component
  /-- The instance's one Clock (R12, R42). -/
  clock : Clock
  /-- The caller's calls that are not yet performed, oldest first (R71). The model's own field (log 1). -/
  calls : List Call
  /-- What the last call returned (R81, R201). The model's own field (log 1). -/
  reply : Reply
deriving DecidableEq, Repr

/-- The reasons a step can stop with a fault: none. Every operation either completes or returns the condition
InvalidInputShape to its caller, after which the machine goes on (R201, R203; section 1 of
93_implementation_defined.md: "No behaviour of the core is stuck"). -/
inductive Fault where
deriving DecidableEq, Repr

/-- The uses a step refuses. All are safe: nothing is claimed about a next state of a refused use. -/
inductive Refusal where
  /-- Raised by `exec` for an instruction that has no meaning yet; no arm does so now. Safe. -/
  | notModelled (mnemonic : String)
  /-- Raised by `step` when the oldest call is no operation of the core or breaks its operand contract (R81, R88, R14, R206;
  decisions D5, D21). Safe. -/
  | undecodable (why : Reject)
  /-- Raised by every operation that names a component the instance does not hold. The core has no such component (R3, R81).
  Safe. -/
  | noSuchComponent
  /-- Raised by every operation applied to a component of another kind: such a use is none of the operations of R81. Safe. -/
  | wrongComponent
  /-- Raised by every operation applied to, and by CLOCK.SUBSCRIBE of, a component owned by another (R180, R186, R206;
  decisions D11, D12). Safe. -/
  | ownedComponent
  /-- Raised by `construct` for an N-bit Register with N = 0 (R9, R206; decision D10). Safe. -/
  | zeroWidthRegister
deriving DecidableEq, Repr

/-! ### Construction (R220) -/

/-- A Cell at construction (R30). -/
def Cell.init : Cell := { pending := false, stored := false, prev := false }

/-- A Loadable Bit at construction (R33, decision D2). -/
def LoadableBit.init : LoadableBit := { recValue := false, recLoad := false, cell := Cell.init }

/-- An N-bit Register at construction (R35). -/
def Register.init (n : Nat) : Register := { bits := List.replicate n LoadableBit.init }

/-- A RAM level at construction (R37, R38, decision D2). -/
def Ram.init (X : Level) : Ram :=
  { level := X, recWord := 0, recAddress := List.replicate X.addrWidth false, recLoad := false, mem := [], prev := false }

/-- A Program Counter at construction (R40, decision D2). -/
def Pc.init : Pc :=
  { recInputValue := 0, recLoad := false, recIncrement := false, recReset := false, reg := Register.init wordWidth }

/-- A Clock at construction (R42, decision D4). -/
def Clock.init : Clock := { elapsedTicks := 0, subscribers := [] }

/-- The component that construction of a kind gives. -/
def Component.init : Kind → Component
  | .cell => .cell Cell.init
  | .bit => .bit LoadableBit.init
  | .reg n => .reg (Register.init n)
  | .ram X => .ram (Ram.init X)
  | .pc => .pc Pc.init

/-- The simulation instance a caller constructs from components of these kinds (R223 steps 1 and 2), or the refusal of a
Register of width 0 (decision D10). -/
def construct (kinds : List Kind) : Except Refusal State :=
  if Kind.reg 0 ∈ kinds then .error .zeroWidthRegister
  else .ok { components := kinds.map Component.init, clock := Clock.init, calls := [], reply := .done }

/-- The machine right after reset: every field as at construction (R220), in the system of Config.lean (log 2). -/
def State.reset : State :=
  { components := standardSystem.map Component.init, clock := Clock.init, calls := [], reply := .done }

end Sys2Proof.Machine
end

