-- ==== Sys2Proof/Machine/Ops.lean ====
section
/-! DEFINITION. The shared operations of the machine: the word array of a RAM level, finding a component by its name,
returning to the caller, and raising the one condition of the core. -/

namespace Sys2Proof.Machine

open Sys2Proof

/-- The outcome of an operation. -/
abbrev Result := Host.Outcome State Fault Refusal

/-! ### The word array of a RAM level -/

/-- What an address that is not listed reads as: every word is zero at construction (R38). -/
def memDefault : Word := 0

/-- `MemRead_X(a)` (R64). -/
def memRead : Memory → Nat → Word
  | [], _ => memDefault
  | (k, v) :: rest, a => if k = a then v else memRead rest a

/-- `MemWrite_X(a, w)` (R65), keeping the canonical form: the entry goes when w is what an unlisted address reads as. -/
def memWrite : Memory → Nat → Word → Memory
  | [], a, w => if w = memDefault then [] else [(a, w)]
  | (k, v) :: rest, a, w =>
    if a < k then (if w = memDefault then (k, v) :: rest else (a, w) :: (k, v) :: rest)
    else if a = k then (if w = memDefault then rest else (a, w) :: rest)
    else (k, v) :: memWrite rest a w

/-- The canonical form above an address: strictly rising addresses, none below `lo`, no entry equal to the default. -/
def memWfFrom : Nat → Memory → Bool
  | _, [] => true
  | lo, (k, v) :: rest => decide (lo ≤ k) && decide (v ≠ memDefault) && memWfFrom (k + 1) rest

/-- The canonical form of a word array: strictly rising addresses, no entry equal to the default. -/
def Memory.wf (m : Memory) : Bool := memWfFrom 0 m

/-- Every listed address is one of the `size` words of the level (R60). -/
def Memory.within (size : Nat) (m : Memory) : Bool := m.all fun e => decide (e.1 < size)

/-! ### Components -/

/-- The number of Loadable Bits of a Register, its width N (R35). -/
def Register.width (r : Register) : Nat := r.bits.length

/-- The kind of a component. -/
def Component.kind : Component → Kind
  | .cell _ => .cell
  | .bit _ => .bit
  | .reg r => .reg r.width
  | .ram m => .ram m.level
  | .pc _ => .pc

/-- The top-level component a name stands for. A name with a path stands for a component owned by another, which no
operation may be applied to (R21, R60, R186, R206). -/
def State.lookup (s : State) (c : Ref) : Except Refusal Component :=
  match s.components[c.top]? with
  | none => .error .noSuchComponent
  | some comp =>
    match c.path with
    | [] => .ok comp
    | k :: path =>
      match comp.kind.along (k :: path) with
      | some _ => .error .ownedComponent
      | none => .error .noSuchComponent

/-- Apply an operation of the Cell (R81). -/
def onCell (c : Ref) (s : State) (f : Cell → Result) : Result :=
  match s.lookup c with
  | .ok (.cell x) => f x
  | .ok _ => .refused .wrongComponent
  | .error r => .refused r

/-- Apply an operation of the Loadable Bit (R81). -/
def onBit (c : Ref) (s : State) (f : LoadableBit → Result) : Result :=
  match s.lookup c with
  | .ok (.bit x) => f x
  | .ok _ => .refused .wrongComponent
  | .error r => .refused r

/-- Apply an operation of the N-bit Register (R81). -/
def onReg (c : Ref) (s : State) (f : Register → Result) : Result :=
  match s.lookup c with
  | .ok (.reg x) => f x
  | .ok _ => .refused .wrongComponent
  | .error r => .refused r

/-- Apply an operation of the RAM level X (R81). -/
def onRam (X : Level) (c : Ref) (s : State) (f : Ram → Result) : Result :=
  match s.lookup c with
  | .ok (.ram x) => if x.level = X then f x else .refused .wrongComponent
  | .ok _ => .refused .wrongComponent
  | .error r => .refused r

/-- Apply an operation of the Program Counter (R81). -/
def onPc (c : Ref) (s : State) (f : Pc → Result) : Result :=
  match s.lookup c with
  | .ok (.pc x) => f x
  | .ok _ => .refused .wrongComponent
  | .error r => .refused r

/-! ### Returning to the caller -/

/-- The component of this number replaced, and nothing returned: how an operation that writes state completes. -/
def State.put (s : State) (k : Nat) (comp : Component) : State :=
  { s with components := s.components.set k comp, reply := .done }

/-- A value returned, and no other state written: how a read completes (R68). -/
def State.answer (s : State) (r : Reply) : State := { s with reply := r }

/-- Taking the one exception of the core, `raise InvalidInputShape(expected, actual)` (R200, R201, R209): the operation is
aborted before any state is written, no state is saved, no mode changes and no handler is entered; the condition goes back
to the caller. There is no return from it (R210): the caller's next call is performed as if the failing one had not been
made. -/
def raiseShape (expected actual : Nat) (s : State) : Result := .next (s.answer (.invalidInputShape expected actual))

/-- A shape check (R86): go on if the lengths agree, else raise the condition. -/
def checkShape (expected actual : Nat) (s : State) (ok : Result) : Result :=
  if actual = expected then ok else raiseShape expected actual s

end Sys2Proof.Machine
end

