-- ==== Sys2Proof/Machine/CellOps.lean ====
section
/-! DEFINITION. The Edge-Triggered Cell (40_cell.md). -/

namespace Sys2Proof.Machine

open Sys2Proof

/-- CELL.SET_INPUT(d) on a Cell (R100). -/
def Cell.setInput (c : Cell) (d : Bit) : Cell := { c with pending := d }

/-- CELL.RECOMPUTE on a Cell: no state is written (R101). -/
def Cell.recompute (c : Cell) : Cell := c

/-- CELL.GET_OUTPUT of a Cell: `(stored, not stored)` (R102). -/
def Cell.output (c : Cell) : Bit × Bit := (c.stored, !c.stored)

/-- CELL.ON_CLOCK(level) on a Cell (R103). -/
def Cell.onClock (c : Cell) (level : Bit) : Cell :=
  { pending := c.pending, stored := if rising c.prev level then c.pending else c.stored, prev := level }

/-- CELL.SET_INPUT (R100). -/
def execCellSetInput (c : Ref) (d : Bit) (s : State) : Result :=
  onCell c s fun x => .next (s.put c.top (.cell (x.setInput d)))

/-- CELL.RECOMPUTE (R101). -/
def execCellRecompute (c : Ref) (s : State) : Result :=
  onCell c s fun x => .next (s.put c.top (.cell x.recompute))

/-- CELL.GET_OUTPUT (R102). -/
def execCellGetOutput (c : Ref) (s : State) : Result :=
  onCell c s fun x => .next (s.answer (.pair x.output.1 x.output.2))

/-- CELL.ON_CLOCK (R103). -/
def execCellOnClock (c : Ref) (level : Bit) (s : State) : Result :=
  onCell c s fun x => .next (s.put c.top (.cell (x.onClock level)))

end Sys2Proof.Machine
end

