-- ==== Sys2Proof/Machine/BitRegister.lean ====
section
/-! DEFINITION. The Loadable Bit and the N-bit Register (41_bit_register.md). -/

namespace Sys2Proof.Machine

open Sys2Proof

/-! ### Loadable Bit -/

/-- BIT.SET_INPUT(value, load) on a Loadable Bit (R110). -/
def LoadableBit.setInput (b : LoadableBit) (value load : Bit) : LoadableBit :=
  { recValue := value, recLoad := load, cell := b.cell.setInput (mux load b.cell.stored value) }

/-- BIT.RECOMPUTE on a Loadable Bit (R111). -/
def LoadableBit.recompute (b : LoadableBit) : LoadableBit :=
  { b with cell := b.cell.setInput (mux b.recLoad b.cell.stored b.recValue) }

/-- BIT.GET_OUTPUT of a Loadable Bit: the Cell's primary output (R112). -/
def LoadableBit.output (b : LoadableBit) : Bit := b.cell.output.1

/-- BIT.ON_CLOCK(level) on a Loadable Bit: recompute, then clock the Cell (R113). -/
def LoadableBit.onClock (b : LoadableBit) (level : Bit) : LoadableBit :=
  { b.recompute with cell := b.recompute.cell.onClock level }

/-- BIT.SET_INPUT (R110). -/
def execBitSetInput (c : Ref) (value load : Bit) (s : State) : Result :=
  onBit c s fun b => .next (s.put c.top (.bit (b.setInput value load)))

/-- BIT.RECOMPUTE (R111). -/
def execBitRecompute (c : Ref) (s : State) : Result :=
  onBit c s fun b => .next (s.put c.top (.bit b.recompute))

/-- BIT.GET_OUTPUT (R112). -/
def execBitGetOutput (c : Ref) (s : State) : Result :=
  onBit c s fun b => .next (s.answer (.bit b.output))

/-- BIT.ON_CLOCK (R113). -/
def execBitOnClock (c : Ref) (level : Bit) (s : State) : Result :=
  onBit c s fun b => .next (s.put c.top (.bit (b.onClock level)))

/-! ### N-bit Register -/

/-- REG.SET_INPUT(bits, load) on a Register after its shape check: `bits[i]` and the shared load to `bit[i]` (R115). -/
def Register.setInput (r : Register) (bits : Bits) (load : Bit) : Register :=
  { bits := List.zipWith (fun b v => b.setInput v load) r.bits bits }

/-- REG.RECOMPUTE on a Register (R116). -/
def Register.recompute (r : Register) : Register := { bits := r.bits.map LoadableBit.recompute }

/-- REG.GET_OUTPUT of a Register: the outputs in bit order (R117). -/
def Register.output (r : Register) : Bits := r.bits.map LoadableBit.output

/-- REG.ON_CLOCK(level) on a Register: the same level to every bit (R118). -/
def Register.onClock (r : Register) (level : Bit) : Register := { bits := r.bits.map fun b => b.onClock level }

/-- REG.SET_INPUT (R115). -/
def execRegSetInput (c : Ref) (bits : Bits) (load : Bit) (s : State) : Result :=
  onReg c s fun r => checkShape r.width bits.length s (.next (s.put c.top (.reg (r.setInput bits load))))

/-- REG.RECOMPUTE (R116). -/
def execRegRecompute (c : Ref) (s : State) : Result :=
  onReg c s fun r => .next (s.put c.top (.reg r.recompute))

/-- REG.GET_OUTPUT (R117). -/
def execRegGetOutput (c : Ref) (s : State) : Result :=
  onReg c s fun r => .next (s.answer (.bits r.output))

/-- REG.ON_CLOCK (R118). -/
def execRegOnClock (c : Ref) (level : Bit) (s : State) : Result :=
  onReg c s fun r => .next (s.put c.top (.reg (r.onClock level)))

end Sys2Proof.Machine
end

