-- ==== Sys2Proof/Machine/PcOps.lean ====
section
/-! DEFINITION. The Program Counter (43_pc.md). -/

namespace Sys2Proof.Machine

open Sys2Proof

/-- The next value: reset, then load, then increment, then hold (R160). -/
def pcNext (v inputValue : Word) (load increment reset : Bit) : Word :=
  if reset then 0 else if load then inputValue else if increment then inc16 v else v

/-- The count, `value(p.reg)` (R40, R164). -/
def Pc.value (p : Pc) : Word := wordOfBits p.reg.output

/-- The next value of the count and the recorded inputs (R160, R161). -/
def Pc.next (p : Pc) : Word := pcNext p.value p.recInputValue p.recLoad p.recIncrement p.recReset

/-- PC_DRIVE: the next value is given to the Register with load 1 forced (R161). -/
def Pc.drive (p : Pc) : Pc := { p with reg := p.reg.setInput (bitsOfWord p.next) true }

/-- PC.SET_INPUT on a Program Counter after its shape check: record the operands, then PC_DRIVE (R162). -/
def Pc.setInput (p : Pc) (inputValue : Bits) (load increment reset : Bit) : Pc :=
  Pc.drive
    { p with recInputValue := wordOfBits inputValue, recLoad := load, recIncrement := increment, recReset := reset }

/-- PC.RECOMPUTE on a Program Counter (R163). -/
def Pc.recompute (p : Pc) : Pc := p.drive

/-- PC.ON_CLOCK(level) on a Program Counter: PC_DRIVE, then clock the Register (R165). -/
def Pc.onClock (p : Pc) (level : Bit) : Pc := { p.drive with reg := p.drive.reg.onClock level }

/-- PC.SET_INPUT (R162). -/
def execPcSetInput (c : Ref) (inputValue : Bits) (load increment reset : Bit) (s : State) : Result :=
  onPc c s fun p =>
    checkShape wordWidth inputValue.length s
      (.next (s.put c.top (.pc (p.setInput inputValue load increment reset))))

/-- PC.RECOMPUTE (R163). -/
def execPcRecompute (c : Ref) (s : State) : Result :=
  onPc c s fun p => .next (s.put c.top (.pc p.recompute))

/-- PC.GET_OUTPUT (R164). -/
def execPcGetOutput (c : Ref) (s : State) : Result :=
  onPc c s fun p => .next (s.answer (.bits p.reg.output))

/-- PC.ON_CLOCK (R165). -/
def execPcOnClock (c : Ref) (level : Bit) (s : State) : Result :=
  onPc c s fun p => .next (s.put c.top (.pc (p.onClock level)))

end Sys2Proof.Machine
end

