-- ==== Sys2Proof/Machine/RamOps.lean ====
section
/-! DEFINITION. The Memory Hierarchy (42_ram.md): the operations of a RAM level in the flat view of R142, written once for
every level, and one meaning for each operation of each level. The tree of R136 and its relation to this view stand in
Machine/Tree.lean. -/

namespace Sys2Proof.Machine

open Sys2Proof

/-- X.SET_INPUT(word, address, load) on a RAM level after its shape checks: the inputs are recorded, no word changes (R130,
R142). -/
def Ram.setInput (m : Ram) (word address : Bits) (load : Bit) : Ram :=
  { m with recWord := wordOfBits word, recAddress := address, recLoad := load }

/-- X.RECOMPUTE on a RAM level: the recorded inputs are forwarded again, which changes nothing in the flat view (R131, R142). -/
def Ram.recompute (m : Ram) : Ram := m

/-- The word of a RAM level at an address of A bits (R64, R132). -/
def Ram.read (m : Ram) (address : Bits) : Word := memRead m.mem (uint address)

/-- X.ON_CLOCK(level) on a RAM level: on a rising edge with load recorded, the recorded word goes to the recorded address
(R133, R142). -/
def Ram.onClock (m : Ram) (level : Bit) : Ram :=
  { m with
    mem := if rising m.prev level && m.recLoad then memWrite m.mem (uint m.recAddress) m.recWord else m.mem
    prev := level }

/-! ### The operations, for any level -/

/-- X.SET_INPUT: the word is checked before the address (R86, R130, decision D9). -/
def ramSetInput (X : Level) (c : Ref) (word address : Bits) (load : Bit) (s : State) : Result :=
  onRam X c s fun m =>
    checkShape wordWidth word.length s
      (checkShape X.addrWidth address.length s (.next (s.put c.top (.ram (m.setInput word address load)))))

/-- X.RECOMPUTE (R131). -/
def ramRecompute (X : Level) (c : Ref) (s : State) : Result :=
  onRam X c s fun m => .next (s.put c.top (.ram m.recompute))

/-- X.GET_OUTPUT (R132, decision D8). -/
def ramGetOutput (X : Level) (c : Ref) (address : Bits) (s : State) : Result :=
  onRam X c s fun m => checkShape X.addrWidth address.length s (.next (s.answer (.bits (bitsOfWord (m.read address)))))

/-- X.ON_CLOCK (R133). -/
def ramOnClock (X : Level) (c : Ref) (level : Bit) (s : State) : Result :=
  onRam X c s fun m => .next (s.put c.top (.ram (m.onClock level)))

/-! ### The meanings of the five levels -/

/-- RAM8.SET_INPUT (R130). -/
def execRam8SetInput (c : Ref) (word address : Bits) (load : Bit) (s : State) : Result :=
  ramSetInput .ram8 c word address load s

/-- RAM8.RECOMPUTE (R131). -/
def execRam8Recompute (c : Ref) (s : State) : Result := ramRecompute .ram8 c s

/-- RAM8.GET_OUTPUT (R132). -/
def execRam8GetOutput (c : Ref) (address : Bits) (s : State) : Result := ramGetOutput .ram8 c address s

/-- RAM8.ON_CLOCK (R133). -/
def execRam8OnClock (c : Ref) (level : Bit) (s : State) : Result := ramOnClock .ram8 c level s

/-- RAM8.INDEX_READ, which is RAM8.GET_OUTPUT (R134, decision D7). -/
def execRam8IndexRead (c : Ref) (address : Bits) (s : State) : Result := ramGetOutput .ram8 c address s

/-- RAM8.INDEX_WRITE, which is RAM8.SET_INPUT with load 1 (R135, decision D6). -/
def execRam8IndexWrite (c : Ref) (address word : Bits) (s : State) : Result :=
  ramSetInput .ram8 c word address true s

/-- RAM64.SET_INPUT (R130). -/
def execRam64SetInput (c : Ref) (word address : Bits) (load : Bit) (s : State) : Result :=
  ramSetInput .ram64 c word address load s

/-- RAM64.RECOMPUTE (R131). -/
def execRam64Recompute (c : Ref) (s : State) : Result := ramRecompute .ram64 c s

/-- RAM64.GET_OUTPUT (R132). -/
def execRam64GetOutput (c : Ref) (address : Bits) (s : State) : Result := ramGetOutput .ram64 c address s

/-- RAM64.ON_CLOCK (R133). -/
def execRam64OnClock (c : Ref) (level : Bit) (s : State) : Result := ramOnClock .ram64 c level s

/-- RAM64.INDEX_READ, which is RAM64.GET_OUTPUT (R134, decision D7). -/
def execRam64IndexRead (c : Ref) (address : Bits) (s : State) : Result := ramGetOutput .ram64 c address s

/-- RAM64.INDEX_WRITE, which is RAM64.SET_INPUT with load 1 (R135, decision D6). -/
def execRam64IndexWrite (c : Ref) (address word : Bits) (s : State) : Result :=
  ramSetInput .ram64 c word address true s

/-- RAM512.SET_INPUT (R130). -/
def execRam512SetInput (c : Ref) (word address : Bits) (load : Bit) (s : State) : Result :=
  ramSetInput .ram512 c word address load s

/-- RAM512.RECOMPUTE (R131). -/
def execRam512Recompute (c : Ref) (s : State) : Result := ramRecompute .ram512 c s

/-- RAM512.GET_OUTPUT (R132). -/
def execRam512GetOutput (c : Ref) (address : Bits) (s : State) : Result := ramGetOutput .ram512 c address s

/-- RAM512.ON_CLOCK (R133). -/
def execRam512OnClock (c : Ref) (level : Bit) (s : State) : Result := ramOnClock .ram512 c level s

/-- RAM512.INDEX_READ, which is RAM512.GET_OUTPUT (R134, decision D7). -/
def execRam512IndexRead (c : Ref) (address : Bits) (s : State) : Result := ramGetOutput .ram512 c address s

/-- RAM512.INDEX_WRITE, which is RAM512.SET_INPUT with load 1 (R135, decision D6). -/
def execRam512IndexWrite (c : Ref) (address word : Bits) (s : State) : Result :=
  ramSetInput .ram512 c word address true s

/-- RAM4K.SET_INPUT (R130). -/
def execRam4kSetInput (c : Ref) (word address : Bits) (load : Bit) (s : State) : Result :=
  ramSetInput .ram4k c word address load s

/-- RAM4K.RECOMPUTE (R131). -/
def execRam4kRecompute (c : Ref) (s : State) : Result := ramRecompute .ram4k c s

/-- RAM4K.GET_OUTPUT (R132). -/
def execRam4kGetOutput (c : Ref) (address : Bits) (s : State) : Result := ramGetOutput .ram4k c address s

/-- RAM4K.ON_CLOCK (R133). -/
def execRam4kOnClock (c : Ref) (level : Bit) (s : State) : Result := ramOnClock .ram4k c level s

/-- RAM4K.INDEX_READ, which is RAM4K.GET_OUTPUT (R134, decision D7). -/
def execRam4kIndexRead (c : Ref) (address : Bits) (s : State) : Result := ramGetOutput .ram4k c address s

/-- RAM4K.INDEX_WRITE, which is RAM4K.SET_INPUT with load 1 (R135, decision D6). -/
def execRam4kIndexWrite (c : Ref) (address word : Bits) (s : State) : Result :=
  ramSetInput .ram4k c word address true s

/-- RAM16K.SET_INPUT (R130). -/
def execRam16kSetInput (c : Ref) (word address : Bits) (load : Bit) (s : State) : Result :=
  ramSetInput .ram16k c word address load s

/-- RAM16K.RECOMPUTE (R131). -/
def execRam16kRecompute (c : Ref) (s : State) : Result := ramRecompute .ram16k c s

/-- RAM16K.GET_OUTPUT (R132). -/
def execRam16kGetOutput (c : Ref) (address : Bits) (s : State) : Result := ramGetOutput .ram16k c address s

/-- RAM16K.ON_CLOCK (R133). -/
def execRam16kOnClock (c : Ref) (level : Bit) (s : State) : Result := ramOnClock .ram16k c level s

/-- RAM16K.INDEX_READ, which is RAM16K.GET_OUTPUT (R134, decision D7). -/
def execRam16kIndexRead (c : Ref) (address : Bits) (s : State) : Result := ramGetOutput .ram16k c address s

/-- RAM16K.INDEX_WRITE, which is RAM16K.SET_INPUT with load 1 (R135, decision D6). -/
def execRam16kIndexWrite (c : Ref) (address word : Bits) (s : State) : Result :=
  ramSetInput .ram16k c word address true s

end Sys2Proof.Machine
end

