-- ==== Sys2Proof/Machine/ClockOps.lean ====
section
/-! DEFINITION. The Clock (44_clock.md). -/

namespace Sys2Proof.Machine

open Sys2Proof

/-- `on_clock(level)` of a component, whatever its kind (R103, R113, R118, R133, R165). -/
def Component.onClock (comp : Component) (level : Bit) : Component :=
  match comp with
  | .cell c => .cell (c.onClock level)
  | .bit b => .bit (b.onClock level)
  | .reg r => .reg (r.onClock level)
  | .ram m => .ram (m.onClock level)
  | .pc p => .pc (p.onClock level)

/-- One pass over the subscribers, in order: `on_clock(level)` to each (R181). -/
def notify (level : Bit) (subscribers : List Nat) (comps : List Component) : List Component :=
  subscribers.foldl (fun cs k => cs.modify k fun comp => comp.onClock level) comps

/-- The state after one `tick()`: a rising pass, then a falling pass, then the count (R181, decisions D3, D4). -/
def State.tick (s : State) : State :=
  { s with
    components := notify false s.clock.subscribers (notify true s.clock.subscribers s.components)
    clock := { s.clock with elapsedTicks := s.clock.elapsedTicks + 1 } }

/-- The numbers of the components a SUBSCRIBE names, or its refusal: a component owned by another may not be subscribed
(R180, decision D11). -/
def subscriberNumbers (s : State) : List Ref → Except Refusal (List Nat)
  | [] => .ok []
  | c :: cs =>
    match s.lookup c, subscriberNumbers s cs with
    | .ok _, .ok ks => .ok (c.top :: ks)
    | .error r, _ => .error r
    | _, .error r => .error r

/-- CLOCK.SUBSCRIBE (R180). -/
def execClockSubscribe (components : List Ref) (s : State) : Result :=
  match subscriberNumbers s components with
  | .ok ks =>
    .next { s with clock := { s.clock with subscribers := s.clock.subscribers ++ ks }, reply := .done }
  | .error r => .refused r

/-- CLOCK.TICK (R181). -/
def execClockTick (s : State) : Result := .next (s.tick.answer .done)

/-- CLOCK.ELAPSED_TICKS (R182). -/
def execClockElapsedTicks (s : State) : Result := .next (s.answer (.count s.clock.elapsedTicks))

end Sys2Proof.Machine
end

