-- ==== Sys2Proof/Machine/Dispatch.lean ====
section
/-! DEFINITION. One arm per operation of the core. -/

namespace Sys2Proof.Machine
open Sys2Proof

def exec (i : Instr) (s : State) : Host.Outcome State Fault Refusal :=
  match i with
  | .cellSetInput c d => Sys2Proof.Machine.execCellSetInput c d s
  | .cellRecompute c => Sys2Proof.Machine.execCellRecompute c s
  | .cellGetOutput c => Sys2Proof.Machine.execCellGetOutput c s
  | .cellOnClock c level => Sys2Proof.Machine.execCellOnClock c level s
  | .bitSetInput c value load => Sys2Proof.Machine.execBitSetInput c value load s
  | .bitRecompute c => Sys2Proof.Machine.execBitRecompute c s
  | .bitGetOutput c => Sys2Proof.Machine.execBitGetOutput c s
  | .bitOnClock c level => Sys2Proof.Machine.execBitOnClock c level s
  | .regSetInput c bits load => Sys2Proof.Machine.execRegSetInput c bits load s
  | .regRecompute c => Sys2Proof.Machine.execRegRecompute c s
  | .regGetOutput c => Sys2Proof.Machine.execRegGetOutput c s
  | .regOnClock c level => Sys2Proof.Machine.execRegOnClock c level s
  | .ram8SetInput c word address load => Sys2Proof.Machine.execRam8SetInput c word address load s
  | .ram8Recompute c => Sys2Proof.Machine.execRam8Recompute c s
  | .ram8GetOutput c address => Sys2Proof.Machine.execRam8GetOutput c address s
  | .ram8OnClock c level => Sys2Proof.Machine.execRam8OnClock c level s
  | .ram8IndexRead c address => Sys2Proof.Machine.execRam8IndexRead c address s
  | .ram8IndexWrite c address word => Sys2Proof.Machine.execRam8IndexWrite c address word s
  | .ram64SetInput c word address load => Sys2Proof.Machine.execRam64SetInput c word address load s
  | .ram64Recompute c => Sys2Proof.Machine.execRam64Recompute c s
  | .ram64GetOutput c address => Sys2Proof.Machine.execRam64GetOutput c address s
  | .ram64OnClock c level => Sys2Proof.Machine.execRam64OnClock c level s
  | .ram64IndexRead c address => Sys2Proof.Machine.execRam64IndexRead c address s
  | .ram64IndexWrite c address word => Sys2Proof.Machine.execRam64IndexWrite c address word s
  | .ram512SetInput c word address load => Sys2Proof.Machine.execRam512SetInput c word address load s
  | .ram512Recompute c => Sys2Proof.Machine.execRam512Recompute c s
  | .ram512GetOutput c address => Sys2Proof.Machine.execRam512GetOutput c address s
  | .ram512OnClock c level => Sys2Proof.Machine.execRam512OnClock c level s
  | .ram512IndexRead c address => Sys2Proof.Machine.execRam512IndexRead c address s
  | .ram512IndexWrite c address word => Sys2Proof.Machine.execRam512IndexWrite c address word s
  | .ram4kSetInput c word address load => Sys2Proof.Machine.execRam4kSetInput c word address load s
  | .ram4kRecompute c => Sys2Proof.Machine.execRam4kRecompute c s
  | .ram4kGetOutput c address => Sys2Proof.Machine.execRam4kGetOutput c address s
  | .ram4kOnClock c level => Sys2Proof.Machine.execRam4kOnClock c level s
  | .ram4kIndexRead c address => Sys2Proof.Machine.execRam4kIndexRead c address s
  | .ram4kIndexWrite c address word => Sys2Proof.Machine.execRam4kIndexWrite c address word s
  | .ram16kSetInput c word address load => Sys2Proof.Machine.execRam16kSetInput c word address load s
  | .ram16kRecompute c => Sys2Proof.Machine.execRam16kRecompute c s
  | .ram16kGetOutput c address => Sys2Proof.Machine.execRam16kGetOutput c address s
  | .ram16kOnClock c level => Sys2Proof.Machine.execRam16kOnClock c level s
  | .ram16kIndexRead c address => Sys2Proof.Machine.execRam16kIndexRead c address s
  | .ram16kIndexWrite c address word => Sys2Proof.Machine.execRam16kIndexWrite c address word s
  | .pcSetInput c inputValue load increment reset => Sys2Proof.Machine.execPcSetInput c inputValue load increment reset s
  | .pcRecompute c => Sys2Proof.Machine.execPcRecompute c s
  | .pcGetOutput c => Sys2Proof.Machine.execPcGetOutput c s
  | .pcOnClock c level => Sys2Proof.Machine.execPcOnClock c level s
  | .clockSubscribe components => Sys2Proof.Machine.execClockSubscribe components s
  | .clockTick => Sys2Proof.Machine.execClockTick s
  | .clockElapsedTicks => Sys2Proof.Machine.execClockElapsedTicks s

end Sys2Proof.Machine
end

