-- ==== Sys2Proof/Machine/Step.lean ====
section
/-! DEFINITION. One step of the machine: the caller's oldest call is taken, decoded and performed; every operation runs to
completion before the next begins (R71). -/

namespace Sys2Proof.Machine

open Sys2Proof

/-- One step. With no call waiting nothing changes: the core performs operations only when a caller invokes them and
changes at nothing else (R21, R217). DESIGN CHOICE (log 5). -/
def step (s : State) : Host.Outcome State Fault Refusal :=
  match s.calls with
  | [] => .next s
  | call :: rest =>
    match decode call with
    | .ok i => exec i { s with calls := rest }
    | .error why => .refused (.undecodable why)

/-- A caller's calls, issued after those already waiting. -/
def State.issue (s : State) (calls : List Call) : State := { s with calls := s.calls ++ calls }

/-- The state with the call of a table word as the oldest one waiting, which the next step takes (log 3). -/
def State.withFetchWord (s : State) (nbits w : Nat) : State :=
  { s with calls := callOfTableWord nbits w :: s.calls }

end Sys2Proof.Machine
end

