-- ==== Sys2Proof/Machine/Flat.lean ====
section
/-! DEFINITION. The flat views of R49 for the components that State holds bit by bit: the Loadable Bit (R114), the N-bit
Register (R119) and the Program Counter (R170), each with its flat operations. State holds a Cell (R108) and a RAM level
(R142) in their flat views already. -/

namespace Sys2Proof.Machine

open Sys2Proof

/-- Flat Loadable Bit (R114). -/
structure FlatBit where
  recValue : Bit
  recLoad : Bit
  stored : Bit
  prev : Bit
deriving DecidableEq, Repr

/-- `set_input(v, l)` of the flat Loadable Bit (R114). -/
def FlatBit.setInput (b : FlatBit) (value load : Bit) : FlatBit := { b with recValue := value, recLoad := load }

/-- `on_clock(level)` of the flat Loadable Bit (R114). -/
def FlatBit.onClock (b : FlatBit) (level : Bit) : FlatBit :=
  { b with stored := if rising b.prev level && b.recLoad then b.recValue else b.stored, prev := level }

/-- The flat view of a Loadable Bit (R49). -/
def LoadableBit.flat (b : LoadableBit) : FlatBit :=
  { recValue := b.recValue, recLoad := b.recLoad, stored := b.cell.stored, prev := b.cell.prev }

/-- Flat N-bit Register (R119). -/
structure FlatReg where
  recBits : Bits
  recLoad : Bit
  value : Bits
  prev : Bit
deriving DecidableEq, Repr

/-- `set_input(bits, load)` of the flat Register after its shape check (R119). -/
def FlatReg.setInput (r : FlatReg) (bits : Bits) (load : Bit) : FlatReg := { r with recBits := bits, recLoad := load }

/-- `on_clock(level)` of the flat Register (R119). -/
def FlatReg.onClock (r : FlatReg) (level : Bit) : FlatReg :=
  { r with value := if rising r.prev level && r.recLoad then r.recBits else r.value, prev := level }

/-- The load that all bits of a Register share (R36), read at bit 0. -/
def Register.sharedLoad (r : Register) : Bit := (r.bits.map LoadableBit.recLoad).headD false

/-- The clock level that all Cells of a Register share (R48), read at bit 0. -/
def Register.sharedPrev (r : Register) : Bit := (r.bits.map fun b => b.cell.prev).headD false

/-- The flat view of a Register (R49). -/
def Register.flat (r : Register) : FlatReg :=
  { recBits := r.bits.map LoadableBit.recValue, recLoad := r.sharedLoad, value := r.output, prev := r.sharedPrev }

/-- Flat Program Counter (R170). -/
structure FlatPc where
  recInputValue : Word
  recLoad : Bit
  recIncrement : Bit
  recReset : Bit
  value : Word
  prev : Bit
deriving DecidableEq, Repr

/-- `set_input(in, load, increment, reset)` of the flat Program Counter after its shape check (R170). -/
def FlatPc.setInput (p : FlatPc) (inputValue : Word) (load increment reset : Bit) : FlatPc :=
  { p with recInputValue := inputValue, recLoad := load, recIncrement := increment, recReset := reset }

/-- `on_clock(level)` of the flat Program Counter (R170). -/
def FlatPc.onClock (p : FlatPc) (level : Bit) : FlatPc :=
  { p with
    value := if rising p.prev level then pcNext p.value p.recInputValue p.recLoad p.recIncrement p.recReset else p.value
    prev := level }

/-- The flat view of a Program Counter (R49). -/
def Pc.flat (p : Pc) : FlatPc :=
  { recInputValue := p.recInputValue, recLoad := p.recLoad, recIncrement := p.recIncrement, recReset := p.recReset,
    value := p.value, prev := p.reg.sharedPrev }

end Sys2Proof.Machine
end

