-- ==== Sys2Proof/Machine/Tree.lean ====
section
/-! DEFINITION. The Memory Hierarchy as the composition tree of R3 and R37: every RAM level with its recorded inputs and its
children, down to the Loadable Bits and Cells of each Register, and the operations of R130 to R136 on it, written as the
spec writes them. A `Ram` of State stands for such a tree, `ramTree`; that the operations of the two agree is stated among
the obligations (R142). -/

namespace Sys2Proof.Machine

open Sys2Proof

/-- One RAM level (R37): its recorded inputs and its children, `child[k]` at index k. -/
structure Block (γ : Type) where
  recWord : Word
  recAddress : Bits
  recLoad : Bit
  child : List γ

/-- The tree below a list of selector widths: a 16-bit Register below none, else a RAM level whose children are the trees
below the rest (R83, R137 to R141). `RamTree X.selectors` is the tree of the level X. -/
def RamTree : List Nat → Type
  | [] => Register
  | _ :: below => Block (RamTree below)

/-- DECODE_FORWARD (R136): the recorded word, the sub-address and the child's own load line to every child, in ascending
order. `forward` is the SET_INPUT of a child. -/
def decodeForward {γ : Type} (F L : Nat) (forward : γ → Word → Bits → Bit → γ) (m : Block γ) : Block γ :=
  { m with
    child := List.zipWith (fun t line => forward t m.recWord (addrSub L m.recAddress) line) m.child
      (dmux F m.recLoad (addrSel L m.recAddress)) }

/-- X.SET_INPUT after its shape checks (R130), down to REG.SET_INPUT of every Register (R115). -/
def treeSetInput : (sels : List Nat) → RamTree sels → Word → Bits → Bit → RamTree sels
  | [], r, word, _, load => Register.setInput r (bitsOfWord word) load
  | S :: below, m, word, address, load =>
    decodeForward (2 ^ S) below.sum (treeSetInput below)
      { m with recWord := word, recAddress := address, recLoad := load }

/-- X.RECOMPUTE (R131); REG.RECOMPUTE for a Register (R116). -/
def treeRecompute : (sels : List Nat) → RamTree sels → RamTree sels
  | [], r => Register.recompute r
  | S :: below, m => decodeForward (2 ^ S) below.sum (treeSetInput below) m

/-- X.GET_OUTPUT after its shape check: every child is read at the sub-address, and the selector picks one result (R132). -/
def treeGetOutput : (sels : List Nat) → RamTree sels → Bits → Bits
  | [], r, _ => Register.output r
  | _ :: below, m, address =>
    select (addrSel below.sum address)
      (m.child.map fun t => treeGetOutput below t (addrSub below.sum address)) []

/-- X.ON_CLOCK (R133): DECODE_FORWARD, then the edge to every child. -/
def treeOnClock : (sels : List Nat) → RamTree sels → Bit → RamTree sels
  | [], r, level => Register.onClock r level
  | S :: below, m, level =>
    { decodeForward (2 ^ S) below.sum (treeSetInput below) m with
      child := (decodeForward (2 ^ S) below.sum (treeSetInput below) m).child.map fun t => treeOnClock below t level }

/-- The tree at construction (R3, R30, R33, R37; decision D2). -/
def treeInit : (sels : List Nat) → RamTree sels
  | [] => Register.init wordWidth
  | S :: below =>
    { recWord := 0, recAddress := List.replicate (S + below.sum) false, recLoad := false,
      child := List.replicate (2 ^ S) (treeInit below) }

/-- The 16-bit Register that holds word w, with these recorded inputs and clock level in every bit: the pending input of
each Cell is the one of R33. -/
def wordRegister (w recWord : Word) (recLoad prev : Bit) : Register :=
  { bits := List.zipWith
      (fun stored value =>
        { recValue := value, recLoad := recLoad,
          cell := { pending := mux recLoad stored value, stored := stored, prev := prev } })
      (bitsOfWord w) (bitsOfWord recWord) }

/-- The tree a flat RAM level stands for. Child k holds the words whose selector is k (R38), and its recorded inputs are
what DECODE_FORWARD gave it last (R136). -/
def treeOf : (sels : List Nat) → (Nat → Word) → Word → Bits → Bit → Bit → RamTree sels
  | [], mem, recWord, _, recLoad, prev => wordRegister (mem 0) recWord recLoad prev
  | S :: below, mem, recWord, recAddress, recLoad, prev =>
    { recWord := recWord, recAddress := recAddress, recLoad := recLoad,
      child := (List.range (2 ^ S)).map fun k =>
        treeOf below (fun j => mem (k * 2 ^ below.sum + j)) recWord (addrSub below.sum recAddress)
          (dmuxLine recLoad (addrSel below.sum recAddress) k) prev }

/-- The composition tree of a RAM level of the state. -/
def ramTree (m : Ram) : RamTree m.level.selectors :=
  treeOf m.level.selectors (memRead m.mem) m.recWord m.recAddress m.recLoad m.prev

end Sys2Proof.Machine
end

