-- ==== Sys2Proof/Safety.lean ====
section
/-! DEFINITION. The terms claims about the machine use: the invariant of a simulation instance, what a caller can see of it,
classes of operations, and runs of operations. -/

namespace Sys2Proof.Machine

open Sys2Proof

/-! ### The invariant -/

/-- The Cell's pending input is the Bit's next value, from the recorded inputs and the stored bit (R33). -/
def LoadableBit.settled (b : LoadableBit) : Bool := b.cell.pending == mux b.recLoad b.cell.stored b.recValue

/-- All bits of a Register are settled and share one load (R36) and one clock level (R48). -/
def Register.uniform (r : Register) : Bool :=
  r.bits.all fun b => b.settled && b.recLoad == r.sharedLoad && b.cell.prev == r.sharedPrev

/-- What holds of a component in every run: R33 of a Loadable Bit; a Register is uniform and not of width 0 (R9); a RAM
level's recorded address has A bits (R37) and its word array is canonical and within its 2^A words (R60); the Program
Counter's Register has 16 bits (R11, R40). -/
def Component.wf : Component → Bool
  | .cell _ => true
  | .bit b => b.settled
  | .reg r => r.width != 0 && r.uniform
  | .ram m =>
    m.recAddress.length == m.level.addrWidth && m.mem.wf && m.mem.within (2 ^ m.level.addrWidth)
  | .pc p => p.reg.width == wordWidth && p.reg.uniform

/-- The invariant of a simulation instance; every subscriber is one of its components (R42, R180). -/
def State.wf (s : State) : Bool :=
  s.components.all Component.wf && s.clock.subscribers.all fun k => decide (k < s.components.length)

/-! ### What a caller can see -/

/-- The committed value of a component, which its reads return: bits, or the words of a RAM level. -/
inductive Visible where
  | bits (out : Bits)
  | words (mem : Memory)
deriving DecidableEq, Repr

/-- The committed value of a component (R32, R34, R35, R38, R40). -/
def Component.visible : Component → Visible
  | .cell c => .bits [c.stored]
  | .bit b => .bits [b.output]
  | .reg r => .bits r.output
  | .ram m => .words m.mem
  | .pc p => .bits p.reg.output

/-- The committed values of all components. -/
def State.outputs (s : State) : List Visible := s.components.map Component.visible

/-- The last clock level every Cell of a component has seen is `level` (R48). -/
def Component.levelIs (level : Bit) : Component → Bool
  | .cell c => c.prev == level
  | .bit b => b.cell.prev == level
  | .reg r => r.bits.all fun b => b.cell.prev == level
  | .ram m => m.prev == level
  | .pc p => p.reg.bits.all fun b => b.cell.prev == level

end Sys2Proof.Machine

namespace Sys2Proof

open Sys2Proof.Machine

/-! ### Classes of operations -/

/-- The component and the level of an ON_CLOCK operation; `none` for any other. -/
def Instr.onClockOf (i : Instr) : Option (Ref × Bit) :=
  match i with
  | .cellSetInput _ _ => none
  | .cellRecompute _ => none
  | .cellGetOutput _ => none
  | .cellOnClock c level => some (c, level)
  | .bitSetInput _ _ _ => none
  | .bitRecompute _ => none
  | .bitGetOutput _ => none
  | .bitOnClock c level => some (c, level)
  | .regSetInput _ _ _ => none
  | .regRecompute _ => none
  | .regGetOutput _ => none
  | .regOnClock c level => some (c, level)
  | .ram8SetInput _ _ _ _ => none
  | .ram8Recompute _ => none
  | .ram8GetOutput _ _ => none
  | .ram8OnClock c level => some (c, level)
  | .ram8IndexRead _ _ => none
  | .ram8IndexWrite _ _ _ => none
  | .ram64SetInput _ _ _ _ => none
  | .ram64Recompute _ => none
  | .ram64GetOutput _ _ => none
  | .ram64OnClock c level => some (c, level)
  | .ram64IndexRead _ _ => none
  | .ram64IndexWrite _ _ _ => none
  | .ram512SetInput _ _ _ _ => none
  | .ram512Recompute _ => none
  | .ram512GetOutput _ _ => none
  | .ram512OnClock c level => some (c, level)
  | .ram512IndexRead _ _ => none
  | .ram512IndexWrite _ _ _ => none
  | .ram4kSetInput _ _ _ _ => none
  | .ram4kRecompute _ => none
  | .ram4kGetOutput _ _ => none
  | .ram4kOnClock c level => some (c, level)
  | .ram4kIndexRead _ _ => none
  | .ram4kIndexWrite _ _ _ => none
  | .ram16kSetInput _ _ _ _ => none
  | .ram16kRecompute _ => none
  | .ram16kGetOutput _ _ => none
  | .ram16kOnClock c level => some (c, level)
  | .ram16kIndexRead _ _ => none
  | .ram16kIndexWrite _ _ _ => none
  | .pcSetInput _ _ _ _ _ => none
  | .pcRecompute _ => none
  | .pcGetOutput _ => none
  | .pcOnClock c level => some (c, level)
  | .clockSubscribe _ => none
  | .clockTick => none
  | .clockElapsedTicks => none

/-- The operation brings a clock edge to some component: an ON_CLOCK, or CLOCK.TICK. -/
def Instr.clocks (i : Instr) : Bool := i.onClockOf.isSome || i == .clockTick

/-- The operations with a shape check, the only ones that may raise InvalidInputShape (R86, R200). -/
def Instr.checked (i : Instr) : Bool :=
  match i with
  | .cellSetInput _ _ => false
  | .cellRecompute _ => false
  | .cellGetOutput _ => false
  | .cellOnClock _ _ => false
  | .bitSetInput _ _ _ => false
  | .bitRecompute _ => false
  | .bitGetOutput _ => false
  | .bitOnClock _ _ => false
  | .regSetInput _ _ _ => true
  | .regRecompute _ => false
  | .regGetOutput _ => false
  | .regOnClock _ _ => false
  | .ram8SetInput _ _ _ _ => true
  | .ram8Recompute _ => false
  | .ram8GetOutput _ _ => true
  | .ram8OnClock _ _ => false
  | .ram8IndexRead _ _ => true
  | .ram8IndexWrite _ _ _ => true
  | .ram64SetInput _ _ _ _ => true
  | .ram64Recompute _ => false
  | .ram64GetOutput _ _ => true
  | .ram64OnClock _ _ => false
  | .ram64IndexRead _ _ => true
  | .ram64IndexWrite _ _ _ => true
  | .ram512SetInput _ _ _ _ => true
  | .ram512Recompute _ => false
  | .ram512GetOutput _ _ => true
  | .ram512OnClock _ _ => false
  | .ram512IndexRead _ _ => true
  | .ram512IndexWrite _ _ _ => true
  | .ram4kSetInput _ _ _ _ => true
  | .ram4kRecompute _ => false
  | .ram4kGetOutput _ _ => true
  | .ram4kOnClock _ _ => false
  | .ram4kIndexRead _ _ => true
  | .ram4kIndexWrite _ _ _ => true
  | .ram16kSetInput _ _ _ _ => true
  | .ram16kRecompute _ => false
  | .ram16kGetOutput _ _ => true
  | .ram16kOnClock _ _ => false
  | .ram16kIndexRead _ _ => true
  | .ram16kIndexWrite _ _ _ => true
  | .pcSetInput _ _ _ _ _ => true
  | .pcRecompute _ => false
  | .pcGetOutput _ => false
  | .pcOnClock _ _ => false
  | .clockSubscribe _ => false
  | .clockTick => false
  | .clockElapsedTicks => false

/-- The operations that return a value and write nothing: every GET_OUTPUT, every INDEX_READ and CLOCK.ELAPSED_TICKS
(R68, R102, R182). -/
def Instr.reads (i : Instr) : Bool :=
  match i with
  | .cellSetInput _ _ => false
  | .cellRecompute _ => false
  | .cellGetOutput _ => true
  | .cellOnClock _ _ => false
  | .bitSetInput _ _ _ => false
  | .bitRecompute _ => false
  | .bitGetOutput _ => true
  | .bitOnClock _ _ => false
  | .regSetInput _ _ _ => false
  | .regRecompute _ => false
  | .regGetOutput _ => true
  | .regOnClock _ _ => false
  | .ram8SetInput _ _ _ _ => false
  | .ram8Recompute _ => false
  | .ram8GetOutput _ _ => true
  | .ram8OnClock _ _ => false
  | .ram8IndexRead _ _ => true
  | .ram8IndexWrite _ _ _ => false
  | .ram64SetInput _ _ _ _ => false
  | .ram64Recompute _ => false
  | .ram64GetOutput _ _ => true
  | .ram64OnClock _ _ => false
  | .ram64IndexRead _ _ => true
  | .ram64IndexWrite _ _ _ => false
  | .ram512SetInput _ _ _ _ => false
  | .ram512Recompute _ => false
  | .ram512GetOutput _ _ => true
  | .ram512OnClock _ _ => false
  | .ram512IndexRead _ _ => true
  | .ram512IndexWrite _ _ _ => false
  | .ram4kSetInput _ _ _ _ => false
  | .ram4kRecompute _ => false
  | .ram4kGetOutput _ _ => true
  | .ram4kOnClock _ _ => false
  | .ram4kIndexRead _ _ => true
  | .ram4kIndexWrite _ _ _ => false
  | .ram16kSetInput _ _ _ _ => false
  | .ram16kRecompute _ => false
  | .ram16kGetOutput _ _ => true
  | .ram16kOnClock _ _ => false
  | .ram16kIndexRead _ _ => true
  | .ram16kIndexWrite _ _ _ => false
  | .pcSetInput _ _ _ _ _ => false
  | .pcRecompute _ => false
  | .pcGetOutput _ => true
  | .pcOnClock _ _ => false
  | .clockSubscribe _ => false
  | .clockTick => false
  | .clockElapsedTicks => true

/-- A component of the kind an operation belongs to; for REG.SET_INPUT, a Register of the width of `bits`. -/
def Instr.fits (i : Instr) (comp : Component) : Bool :=
  match i, comp with
  | .cellSetInput _ _, .cell _ => true
  | .cellRecompute _, .cell _ => true
  | .cellGetOutput _, .cell _ => true
  | .cellOnClock _ _, .cell _ => true
  | .bitSetInput _ _ _, .bit _ => true
  | .bitRecompute _, .bit _ => true
  | .bitGetOutput _, .bit _ => true
  | .bitOnClock _ _, .bit _ => true
  | .regSetInput _ bits _, .reg r => bits.length == r.width
  | .regRecompute _, .reg _ => true
  | .regGetOutput _, .reg _ => true
  | .regOnClock _ _, .reg _ => true
  | .ram8SetInput _ _ _ _, .ram m => m.level == .ram8
  | .ram8Recompute _, .ram m => m.level == .ram8
  | .ram8GetOutput _ _, .ram m => m.level == .ram8
  | .ram8OnClock _ _, .ram m => m.level == .ram8
  | .ram8IndexRead _ _, .ram m => m.level == .ram8
  | .ram8IndexWrite _ _ _, .ram m => m.level == .ram8
  | .ram64SetInput _ _ _ _, .ram m => m.level == .ram64
  | .ram64Recompute _, .ram m => m.level == .ram64
  | .ram64GetOutput _ _, .ram m => m.level == .ram64
  | .ram64OnClock _ _, .ram m => m.level == .ram64
  | .ram64IndexRead _ _, .ram m => m.level == .ram64
  | .ram64IndexWrite _ _ _, .ram m => m.level == .ram64
  | .ram512SetInput _ _ _ _, .ram m => m.level == .ram512
  | .ram512Recompute _, .ram m => m.level == .ram512
  | .ram512GetOutput _ _, .ram m => m.level == .ram512
  | .ram512OnClock _ _, .ram m => m.level == .ram512
  | .ram512IndexRead _ _, .ram m => m.level == .ram512
  | .ram512IndexWrite _ _ _, .ram m => m.level == .ram512
  | .ram4kSetInput _ _ _ _, .ram m => m.level == .ram4k
  | .ram4kRecompute _, .ram m => m.level == .ram4k
  | .ram4kGetOutput _ _, .ram m => m.level == .ram4k
  | .ram4kOnClock _ _, .ram m => m.level == .ram4k
  | .ram4kIndexRead _ _, .ram m => m.level == .ram4k
  | .ram4kIndexWrite _ _ _, .ram m => m.level == .ram4k
  | .ram16kSetInput _ _ _ _, .ram m => m.level == .ram16k
  | .ram16kRecompute _, .ram m => m.level == .ram16k
  | .ram16kGetOutput _ _, .ram m => m.level == .ram16k
  | .ram16kOnClock _ _, .ram m => m.level == .ram16k
  | .ram16kIndexRead _ _, .ram m => m.level == .ram16k
  | .ram16kIndexWrite _ _ _, .ram m => m.level == .ram16k
  | .pcSetInput _ _ _ _ _, .pc _ => true
  | .pcRecompute _, .pc _ => true
  | .pcGetOutput _, .pc _ => true
  | .pcOnClock _ _, .pc _ => true
  | .clockSubscribe _, _ => true
  | _, _ => false

end Sys2Proof

namespace Sys2Proof.Machine

open Sys2Proof

/-- The instance holds every component the operation names, each of the kind the operation belongs to. -/
def State.serves (s : State) (i : Instr) : Bool :=
  i.refs.all fun c =>
    match s.components[c.top]? with
    | some comp => i.fits comp
    | none => false

/-- A name stands for a component owned by another: its path is not empty and leads to a component (R3). -/
def State.owned (s : State) (c : Ref) : Bool :=
  match s.components[c.top]? with
  | some comp => c.path != [] && (comp.kind.along c.path).isSome
  | none => false

/-! ### Runs -/

/-- Operations performed one after the other (R71), up to the first that is refused. -/
def perform : List Instr → State → Result
  | [], s => .next s
  | i :: rest, s =>
    match exec i s with
    | .next t => perform rest t
    | .fault r => .fault r
    | .refused r => .refused r

/-- n consecutive TICKs of the Clock. -/
def ticks : Nat → State → State
  | 0, s => s
  | n + 1, s => ticks n s.tick

end Sys2Proof.Machine
end

