-- ==== Sys2Proof/Certificates/Slice0/Obligations.lean ====
section
/-! DEFINITION. What is claimed of the machine. Each statement's docstring names the rules of the spec it formalises. A
component is named by its number k in the instance, `Ref.ofTop k`; a statement about one of its operations holds for every
instance that holds such a component at k, whatever else it holds. `reply := .done` says that an operation returns nothing (the
"out" column of R81); the field `reply` itself is the model's (log 1). -/

open Sys2Proof Sys2Proof.Machine

/-! ### Words, operands and encoding -/

/-- R16: the conversions between integers and n-bit sequences are exact and invertible for all values in range, an integer
out of range has none (decision D13), and the extensions keep the value. The formulas are the spec's general knowledge (G1). -/
def Obligations.ConversionsAreExactAndInvertible : Prop :=
  ∀ n : Nat, 0 < n →
    (∀ k : Int, 0 ≤ k → k < 2 ^ n → ∃ w, intBits n k = some w ∧ w.length = n ∧ (uint w : Int) = k) ∧
    (∀ k : Int, -(2 ^ (n - 1)) ≤ k → k < 0 → ∃ w, intBits n k = some w ∧ w.length = n ∧ sint w = k) ∧
    (∀ k : Int, k < -(2 ^ (n - 1)) ∨ 2 ^ n ≤ k → intBits n k = none) ∧
    (∀ w : Bits, w.length = n →
      uint w < 2 ^ n ∧ -(2 ^ (n - 1)) ≤ sint w ∧ sint w < 2 ^ (n - 1) ∧
      intBits n (uint w) = some w ∧ intBits n (sint w) = some w ∧
      ∀ m, n ≤ m →
        (zext m w).length = m ∧ uint (zext m w) = uint w ∧ (sext m w).length = m ∧ sint (sext m w) = sint w)

/-- R39: at every RAM level, for any address and load, at most one child has its load line asserted: exactly the child that
the selector names when load is 1, none when load is 0. -/
def Obligations.AtMostOneChildIsLoaded : Prop :=
  ∀ (X : Level) (address : Bits) (load : Bit), address.length = X.addrWidth →
    (dmux X.fanOut load (addrSel X.subWidth address)).length = X.fanOut ∧
    (dmux X.fanOut load (addrSel X.subWidth address)).count true = (if load then 1 else 0) ∧
    ∀ k, (dmux X.fanOut load (addrSel X.subWidth address))[k]? = some true ↔
      load = true ∧ k = uint (addrSel X.subWidth address)

/-- R83 and R84: the selectors of an address, level by level from the top, are the digits of its word index; the first of
them is below the fan-out, and distinct addresses of A bits name distinct words (R38, R60). -/
def Obligations.AddressSplitNamesTheWord : Prop :=
  ∀ (X : Level) (a : Bits), a.length = X.addrWidth →
    uint a = uint (addrSel X.subWidth a) * 2 ^ X.subWidth + uint (addrSub X.subWidth a) ∧
    uint (addrSel X.subWidth a) < X.fanOut ∧ uint (addrSub X.subWidth a) < 2 ^ X.subWidth ∧
    uint a < 2 ^ X.addrWidth ∧ ∀ b : Bits, b.length = X.addrWidth → uint a = uint b → a = b

/-- The decoder reads back every operation from its call, with every operand, whatever its length. The container of a call
is the model's (log 3); the layout of its bundle is R90. -/
def Obligations.DecodeOfEncodeIsTheOperation : Prop := ∀ i : Instr, decode (encode i) = .ok i

/-- Each call has one meaning: a call that decodes is the encoding of what it decodes to, bit for bit (log 3, R90). -/
def Obligations.EncodeOfDecodeIsTheCall : Prop := ∀ (c : Call) (i : Instr), decode c = .ok i → encode i = c

/-- R14, R88 (decisions D21, D5): a call is refused if a value other than 0 or 1 stands in its bundle, or if a SET_INPUT
supplies some operands and omits others: the Cell 1 Bit, the Loadable Bit 2, a Register its bits and 1 Bit, a RAM level its
word, its address and 1 Bit, the Program Counter its value and 3 Bits. -/
def Obligations.NonBitsAndPartialOperandsAreRefused : Prop :=
  (∀ c v, v ∈ c.bundle → 1 < v → ∃ e, decode c = .error e) ∧
  ∀ c, c.op = .setInput → ¬ (c.lens = [] ∧ c.bundle = []) →
    (c.family = .cell → ¬ (c.lens.length = 0 ∧ c.bundle.length = 1) → ∃ e, decode c = .error e) ∧
    (c.family = .bit → ¬ (c.lens.length = 0 ∧ c.bundle.length = 2) → ∃ e, decode c = .error e) ∧
    (c.family = .reg → ¬ (c.lens.length = 1 ∧ c.bundle.length = c.lens.sum + 1) → ∃ e, decode c = .error e) ∧
    (∀ X, c.family = .ram X → ¬ (c.lens.length = 2 ∧ c.bundle.length = c.lens.sum + 1) → ∃ e, decode c = .error e) ∧
    (c.family = .pc → ¬ (c.lens.length = 1 ∧ c.bundle.length = c.lens.sum + 3) → ∃ e, decode c = .error e)

/-- Bundles written out in 95_test_vectors.md (VC2, VB4, VR1, the example of R90, VM10, VM12, VP12) decode to the operations
they stand for there. -/
def Obligations.SpecBundlesDecode : Prop :=
  decode ⟨.cell, .setInput, [.ofTop 0], [], [1]⟩ = .ok (.cellSetInput (.ofTop 0) true) ∧
  decode ⟨.bit, .setInput, [.ofTop 1], [], [0, 1]⟩ = .ok (.bitSetInput (.ofTop 1) false true) ∧
  decode ⟨.reg, .setInput, [.ofTop 2], [16], (natBits 17 0x1BEEF).map Bool.toNat⟩ =
    .ok (.regSetInput (.ofTop 2) (natBits 16 0xBEEF) true) ∧
  decode ⟨.ram .ram64, .setInput, [.ofTop 4], [16, 6], (natBits 23 0x451234).map Bool.toNat⟩ =
    .ok (.ram64SetInput (.ofTop 4) (natBits 16 0x1234) (natBits 6 5) true) ∧
  decode ⟨.ram .ram16k, .setInput, [.ofTop 7], [16, 14], (natBits 31 0x6710CAFE).map Bool.toNat⟩ =
    .ok (.ram16kSetInput (.ofTop 7) (natBits 16 0xCAFE) (natBits 14 10000) true) ∧
  decode ⟨.ram .ram8, .indexWrite, [.ofTop 3], [16, 3], (natBits 19 0x700FF).map Bool.toNat⟩ =
    .ok (.ram8IndexWrite (.ofTop 3) (natBits 3 7) (natBits 16 0x00FF)) ∧
  decode ⟨.pc, .setInput, [.ofTop 8], [16], (natBits 19 0x50000).map Bool.toNat⟩ =
    .ok (.pcSetInput (.ofTop 8) (natBits 16 0) false true true) ∧
  decode ⟨.clock, .tick, [], [], []⟩ = .ok .clockTick

/-! ### The step -/

/-- R71: operations are performed in the order the caller issues them, each to completion: when the oldest call decodes to an
operation, the step is that operation performed on the state without that call. -/
def Obligations.StepPerformsTheOldestCall : Prop :=
  ∀ (s : State) (c : Call) (rest : List Call) (i : Instr), s.calls = c :: rest → decode c = .ok i →
    step s = exec i { s with calls := rest }

/-- With no call waiting a step changes nothing (log 5, a choice of the model; R21: the core never calls a caller), and an
oldest call that does not decode is refused with the decoder's reason (R206). -/
def Obligations.StepWithoutAnOperationChangesNothing : Prop :=
  (∀ s : State, s.calls = [] → step s = .next s) ∧
  ∀ (s : State) (c : Call) (rest : List Call) (e : Reject), s.calls = c :: rest → decode c = .error e →
    step s = .refused (.undecodable e)

/-! ### Construction, and what every step keeps -/

/-- R220 (decisions D2, D4, D10): a constructed instance holds the components asked for, every Cell, recorded input and word
zero, and a Clock with no subscriber and no tick counted. A Register of width 0, and nothing else, is refused. The call queue
and the reply, empty here, are the model's (log 1). -/
def Obligations.ConstructionIsAllZero : Prop :=
  ∀ kinds : List Kind,
    (Kind.reg 0 ∈ kinds → construct kinds = .error .zeroWidthRegister) ∧
    (Kind.reg 0 ∉ kinds → ∃ s, construct kinds = .ok s ∧ s.components.map Component.kind = kinds ∧
      s.clock = ⟨0, []⟩ ∧ s.calls = [] ∧ s.reply = .done ∧
      (∀ c, .cell c ∈ s.components → c = ⟨false, false, false⟩) ∧
      (∀ b, .bit b ∈ s.components → b = ⟨false, false, ⟨false, false, false⟩⟩) ∧
      (∀ r, .reg r ∈ s.components → ∀ b ∈ r.bits, b = ⟨false, false, ⟨false, false, false⟩⟩) ∧
      (∀ m, .ram m ∈ s.components → m.recWord = 0 ∧ m.recAddress.length = m.level.addrWidth ∧ uint m.recAddress = 0 ∧
        m.recLoad = false ∧ m.prev = false ∧ ∀ a : Bits, m.read a = 0) ∧
      (∀ p, .pc p ∈ s.components → p.recInputValue = 0 ∧ p.recLoad = false ∧ p.recIncrement = false ∧
        p.recReset = false ∧ p.value = 0 ∧ p.reg.width = 16 ∧
        ∀ b ∈ p.reg.bits, b = ⟨false, false, ⟨false, false, false⟩⟩))

/-- The machine at reset, whose system of components is the model's choice (log 2), and every instance a caller can construct,
meets the invariant. -/
def Obligations.ConstructionMeetsTheInvariant : Prop :=
  State.reset.wf = true ∧ ∀ (kinds : List Kind) (s : State), construct kinds = .ok s → s.wf = true

/-- Every step keeps the invariant: each Loadable Bit presents the value its recorded inputs and its stored bit give (R33),
the bits of a Register share one load and one clock level (R36, R48), a Register keeps at least one bit and the Program
Counter 16, a RAM level's recorded address keeps A bits and its word array its canonical form within 2^A words (R37, R60),
and every subscriber is a component of the instance (R42). -/
def Obligations.StepKeepsTheInvariant : Prop :=
  ∀ s t : State, s.wf = true → step s = .next t → t.wf = true

/-- R3: the topology is fixed at construction: no step changes how many components there are, or the kind, width or level of
any of them. -/
def Obligations.StepKeepsTheTopology : Prop :=
  ∀ s t : State, step s = .next t → t.components.map Component.kind = s.components.map Component.kind

/-! ### Edge-Triggered Cell -/

/-- R100: CELL.SET_INPUT records the candidate next value and nothing else. -/
def Obligations.CellSetInputRecordsTheNextValue : Prop :=
  ∀ (s : State) (k : Nat) (c : Cell) (d : Bit), s.components[k]? = some (.cell c) →
    exec (.cellSetInput (.ofTop k) d) s =
      .next { s with components := s.components.set k (.cell ⟨d, c.stored, c.prev⟩), reply := .done }

/-- R101 and R102 (decision D24): CELL.RECOMPUTE writes nothing; CELL.GET_OUTPUT returns `(stored, not stored)` and writes
nothing. -/
def Obligations.CellReadAndRecomputeWriteNothing : Prop :=
  ∀ (s : State) (k : Nat) (c : Cell), s.components[k]? = some (.cell c) →
    exec (.cellRecompute (.ofTop k)) s = .next { s with reply := .done } ∧
    exec (.cellGetOutput (.ofTop k)) s = .next { s with reply := .pair c.stored (!c.stored) }

/-- R103: CELL.ON_CLOCK stores the pending input on a transition from 0 to 1 only, and always records the level. -/
def Obligations.CellOnClockCommitsOnARisingEdge : Prop :=
  ∀ (s : State) (k : Nat) (c : Cell) (level : Bit), s.components[k]? = some (.cell c) →
    exec (.cellOnClock (.ofTop k) level) s =
      .next { s with
        components := s.components.set k
          (.cell ⟨c.pending, if c.prev = false ∧ level = true then c.pending else c.stored, level⟩)
        reply := .done }

/-! ### Loadable Bit -/

/-- R110: BIT.SET_INPUT records its operands and gives the Cell `value` if load is 1, its stored bit if load is 0. -/
def Obligations.BitSetInputPresentsTheNextValue : Prop :=
  ∀ (s : State) (k : Nat) (b : LoadableBit) (value load : Bit), s.components[k]? = some (.bit b) →
    exec (.bitSetInput (.ofTop k) value load) s =
      .next { s with
        components := s.components.set k
          (.bit ⟨value, load, ⟨if load then value else b.cell.stored, b.cell.stored, b.cell.prev⟩⟩)
        reply := .done }

/-- R111: BIT.RECOMPUTE gives the Cell the next value of the recorded inputs and the stored bit, and writes nothing else. -/
def Obligations.BitRecomputePresentsTheRecordedInputs : Prop :=
  ∀ (s : State) (k : Nat) (b : LoadableBit), s.components[k]? = some (.bit b) →
    exec (.bitRecompute (.ofTop k)) s =
      .next { s with
        components := s.components.set k
          (.bit ⟨b.recValue, b.recLoad, ⟨if b.recLoad then b.recValue else b.cell.stored, b.cell.stored, b.cell.prev⟩⟩)
        reply := .done }

/-- R112: BIT.GET_OUTPUT returns the stored bit, 0 at construction, and writes nothing. -/
def Obligations.BitGetOutputReturnsTheStoredBit : Prop :=
  (∀ (s : State) (k : Nat) (b : LoadableBit), s.components[k]? = some (.bit b) →
    exec (.bitGetOutput (.ofTop k)) s = .next { s with reply := .bit b.cell.stored }) ∧
  LoadableBit.init.cell.stored = false

/-- R113: BIT.ON_CLOCK recomputes the next value from the recorded inputs and the bit stored before the edge, whatever the
pending input was, and commits it on a rising edge only. -/
def Obligations.BitOnClockRecomputesThenCommits : Prop :=
  ∀ (s : State) (k : Nat) (b : LoadableBit) (level : Bit), s.components[k]? = some (.bit b) →
    ∃ next, next = (if b.recLoad then b.recValue else b.cell.stored) ∧
      exec (.bitOnClock (.ofTop k) level) s =
        .next { s with
          components := s.components.set k
            (.bit ⟨b.recValue, b.recLoad,
              ⟨next, if b.cell.prev = false ∧ level = true then next else b.cell.stored, level⟩⟩)
          reply := .done }

/-! ### N-bit Register -/

/-- R115: REG.SET_INPUT with N bits broadcasts load to all N Loadable Bits and pairs `bits[i]` with bit i. -/
def Obligations.RegSetInputPairsEachBit : Prop :=
  ∀ (s : State) (k : Nat) (r : Register) (bits : Bits) (load : Bit), s.components[k]? = some (.reg r) →
    bits.length = r.bits.length →
    ∃ r', exec (.regSetInput (.ofTop k) bits load) s =
        .next { s with components := s.components.set k (.reg r'), reply := .done } ∧
      r'.bits.length = r.bits.length ∧
      ∀ (i : Nat) (b : LoadableBit) (v : Bit), r.bits[i]? = some b → bits[i]? = some v →
        r'.bits[i]? = some ⟨v, load, ⟨if load then v else b.cell.stored, b.cell.stored, b.cell.prev⟩⟩

/-- R116: REG.RECOMPUTE is BIT.RECOMPUTE of every bit. -/
def Obligations.RegRecomputeRecomputesEachBit : Prop :=
  ∀ (s : State) (k : Nat) (r : Register), s.components[k]? = some (.reg r) →
    ∃ r', exec (.regRecompute (.ofTop k)) s =
        .next { s with components := s.components.set k (.reg r'), reply := .done } ∧
      r'.bits.length = r.bits.length ∧
      ∀ (i : Nat) (b : LoadableBit), r.bits[i]? = some b →
        r'.bits[i]? =
          some ⟨b.recValue, b.recLoad, ⟨if b.recLoad then b.recValue else b.cell.stored, b.cell.stored, b.cell.prev⟩⟩

/-- R117: REG.GET_OUTPUT returns the N outputs in bit order, all zero at construction, and writes nothing. -/
def Obligations.RegGetOutputReturnsTheBitsInOrder : Prop :=
  (∀ (s : State) (k : Nat) (r : Register), s.components[k]? = some (.reg r) →
    ∃ w : Bits, exec (.regGetOutput (.ofTop k)) s = .next { s with reply := .bits w } ∧
      w.length = r.bits.length ∧
      ∀ (i : Nat) (b : LoadableBit), r.bits[i]? = some b → w[i]? = some b.cell.stored) ∧
  ∀ n : Nat, (Register.init n).output = List.replicate n false

/-- R118: REG.ON_CLOCK gives the same level to every one of the N bits. -/
def Obligations.RegOnClockReachesEveryBit : Prop :=
  ∀ (s : State) (k : Nat) (r : Register) (level : Bit), s.components[k]? = some (.reg r) →
    ∃ r', exec (.regOnClock (.ofTop k) level) s =
        .next { s with components := s.components.set k (.reg r'), reply := .done } ∧
      r'.bits.length = r.bits.length ∧
      ∀ (i : Nat) (b : LoadableBit), r.bits[i]? = some b → r'.bits[i]? = some (b.onClock level)

/-- R120: after one rising edge with load 1 and input W a Register reads W, for every width and every W; with load 0 it reads
what it read before. -/
def Obligations.RegisterCommitsTheWholeWord : Prop :=
  ∀ (s : State) (k : Nat) (r : Register) (W : Bits) (load : Bit), s.components[k]? = some (.reg r) →
    W.length = r.bits.length → (Component.reg r).levelIs false = true →
    ∃ t, perform [.regSetInput (.ofTop k) W load, .regOnClock (.ofTop k) true, .regGetOutput (.ofTop k)] s = .next t ∧
      t.reply = .bits (if load then W else r.output)

/-! ### Flat views -/

/-- R114, R119 and R170: a Loadable Bit, a uniform N-bit Register and a Program Counter with a uniform 16-bit Register behave as
their flat views: SET_INPUT, RECOMPUTE and ON_CLOCK agree with the flat operations, and reads return the flat value. -/
def Obligations.FlatViewsAgree : Prop :=
  (∀ (b : LoadableBit) (value load level : Bit),
    (b.setInput value load).flat = b.flat.setInput value load ∧ b.recompute.flat = b.flat ∧
    b.output = b.flat.stored ∧ (b.onClock level).flat = b.flat.onClock level) ∧
  (∀ (r : Register) (bits : Bits) (load level : Bit), (Component.reg r).wf = true → bits.length = r.width →
    (r.setInput bits load).flat = r.flat.setInput bits load ∧ r.recompute.flat = r.flat ∧
    r.output = r.flat.value ∧ (r.onClock level).flat = r.flat.onClock level) ∧
  ∀ (p : Pc) (inputValue : Bits) (load increment reset level : Bit), (Component.pc p).wf = true →
    (p.setInput inputValue load increment reset).flat =
      p.flat.setInput (wordOfBits inputValue) load increment reset ∧
    p.recompute.flat = p.flat ∧ p.reg.output = bitsOfWord p.flat.value ∧ (p.onClock level).flat = p.flat.onClock level

/-! ### Memory Hierarchy -/

/-- R130 (decision D9), R142: at every level, SET_INPUT with a 16-bit word and an A-bit address records them and the load, and
changes no word. -/
def Obligations.RamSetInputRecordsTheWrite : Prop :=
  ∀ (X : Level) (s : State) (k : Nat) (m : Ram) (word address : Bits) (load : Bit), s.components[k]? = some (.ram m) →
    m.level = X → word.length = 16 → address.length = X.addrWidth →
    exec (X.setInput (.ofTop k) word address load) s =
      .next { s with
        components := s.components.set k (.ram ⟨X, wordOfBits word, address, load, m.mem, m.prev⟩), reply := .done }

/-- R135 (decision D6), R142: at every level, INDEX_WRITE is SET_INPUT with load 1, on every operand; with a 16-bit word and an
A-bit address it records them and changes no word. -/
def Obligations.RamIndexWriteRecordsALoadedWrite : Prop :=
  (∀ (X : Level) (s : State) (c : Ref) (address word : Bits),
    exec (X.indexWrite c address word) s = exec (X.setInput c word address true) s) ∧
  ∀ (X : Level) (s : State) (k : Nat) (m : Ram) (address word : Bits), s.components[k]? = some (.ram m) →
    m.level = X → word.length = 16 → address.length = X.addrWidth →
    exec (X.indexWrite (.ofTop k) address word) s =
      .next { s with
        components := s.components.set k (.ram ⟨X, wordOfBits word, address, true, m.mem, m.prev⟩), reply := .done }

/-- R131, R142: at every level, RECOMPUTE changes nothing in the flat view. -/
def Obligations.RamRecomputeChangesNothing : Prop :=
  ∀ (X : Level) (s : State) (k : Nat) (m : Ram), s.components[k]? = some (.ram m) → m.level = X →
    exec (X.recompute (.ofTop k)) s = .next { s with reply := .done }

/-- R132, R134, R68, R79: at every level, GET_OUTPUT and INDEX_READ with an A-bit address return the 16 bits of the word that the
address names, whatever write is recorded, and write nothing. That INDEX_READ is GET_OUTPUT on an A-bit address is decision D7,
and that a read ignores the recorded write address is decision D29 (both log 12, a choice and not the source's). -/
def Obligations.RamReadReturnsTheAddressedWord : Prop :=
  ∀ (X : Level) (s : State) (k : Nat) (m : Ram) (address : Bits), s.components[k]? = some (.ram m) → m.level = X →
    address.length = X.addrWidth →
    ∃ out : Bits, exec (X.getOutput (.ofTop k) address) s = .next { s with reply := .bits out } ∧
      exec (X.indexRead (.ofTop k) address) s = .next { s with reply := .bits out } ∧
      out.length = 16 ∧ uint out = (memRead m.mem (uint address)).toNat

/-- R133, R65, R142: at every level, ON_CLOCK on a rising edge with load recorded replaces the word at the recorded address
by the recorded word and no other; on any other call it changes no word; it always records the level, and the recorded
inputs stay in force. -/
def Obligations.RamOnClockWritesTheRecordedWord : Prop :=
  ∀ (X : Level) (s : State) (k : Nat) (m : Ram) (level : Bit), s.components[k]? = some (.ram m) → m.level = X →
    m.mem.wf = true →
    ∃ mem : Memory, mem.wf = true ∧
      exec (X.onClock (.ofTop k) level) s =
        .next { s with
          components := s.components.set k (.ram ⟨X, m.recWord, m.recAddress, m.recLoad, mem, level⟩), reply := .done } ∧
      (∀ a : Nat, ¬ (m.prev = false ∧ level = true ∧ m.recLoad = true ∧ a = uint m.recAddress) →
        memRead mem a = memRead m.mem a) ∧
      (m.prev = false → level = true → m.recLoad = true → memRead mem (uint m.recAddress) = m.recWord)

/-- R143: for any RAM level, after a write to address x with load 1 followed by a rising edge, reading any address y other than
x returns its value before the write. -/
def Obligations.WriteLeavesOtherWordsAlone : Prop :=
  ∀ (X : Level) (s : State) (k : Nat) (m : Ram) (word x y : Bits), s.components[k]? = some (.ram m) → m.level = X →
    m.mem.wf = true → m.prev = false → word.length = 16 → x.length = X.addrWidth → y.length = X.addrWidth → y ≠ x →
    ∃ t, perform [X.setInput (.ofTop k) word x true, X.onClock (.ofTop k) true, X.getOutput (.ofTop k) y] s = .next t ∧
      t.reply = .bits (bitsOfWord (memRead m.mem (uint y)))

/-- R144: writing word W to address x, then ticking, then reading address x returns W, for every level and every address; the
largest address is 2^A - 1. -/
def Obligations.WriteTickReadRoundTrip : Prop :=
  ∀ (X : Level) (s : State) (k : Nat) (m : Ram) (W x : Bits), s.components[k]? = some (.ram m) → m.level = X →
    m.mem.wf = true → m.prev = false → k ∈ s.clock.subscribers → W.length = 16 → x.length = X.addrWidth →
    ∃ t, perform [X.setInput (.ofTop k) W x true, .clockTick, X.getOutput (.ofTop k) x] s = .next t ∧
      t.reply = .bits W ∧ uint x ≤ 2 ^ X.addrWidth - 1

/-- R145: writing to a RAM address with load 0 and ticking leaves every address, the targeted one included, unchanged. -/
def Obligations.NoLoadHolds : Prop :=
  ∀ (X : Level) (s : State) (k : Nat) (m : Ram) (word x y : Bits), s.components[k]? = some (.ram m) → m.level = X →
    k ∈ s.clock.subscribers → word.length = 16 → x.length = X.addrWidth → y.length = X.addrWidth →
    ∃ t, perform [X.setInput (.ofTop k) word x false, .clockTick, X.getOutput (.ofTop k) y] s = .next t ∧
      t.reply = .bits (bitsOfWord (memRead m.mem (uint y)))

/-- R136, R130, R131, R133, R142: the composition tree of a RAM level, worked as the spec works it (DECODE_FORWARD to every child
at every level, down to each Loadable Bit and Cell), stays the tree that the flat level stands for under SET_INPUT, RECOMPUTE
and ON_CLOCK. -/
def Obligations.RamTreeFollowsTheFlatLevel : Prop :=
  ∀ m : Ram, m.mem.wf = true →
    (∀ (word address : Bits) (load : Bit), word.length = 16 → address.length = m.level.addrWidth →
      treeSetInput m.level.selectors (ramTree m) (wordOfBits word) address load =
        ramTree (m.setInput word address load)) ∧
    treeRecompute m.level.selectors (ramTree m) = ramTree m ∧
    ∀ level : Bit, treeOnClock m.level.selectors (ramTree m) level = ramTree (m.onClock level)

/-- R132, R38: reading the composition tree recursively, every child at the sub-address and then the multiplexer, gives the
word of the flat level; at construction the tree is all zero (R37, R220, decision D2). -/
def Obligations.RamTreeReadsTheFlatWord : Prop :=
  (∀ (m : Ram) (address : Bits), address.length = m.level.addrWidth →
    treeGetOutput m.level.selectors (ramTree m) address = bitsOfWord (m.read address)) ∧
  ∀ X : Level, ramTree (Ram.init X) = treeInit X.selectors

/-! ### Program Counter -/

/-- R160, R161, R162 (decision D27), R163: with a 16-bit value PC.SET_INPUT records its operands and gives the Register, with load
1 forced, the next value chosen from the count by priority reset, load, increment, hold; PC.RECOMPUTE gives it the next value
of the recorded operands. Neither changes the count or a clock level. -/
def Obligations.PcSetInputDrivesTheRegister : Prop :=
  ∀ (s : State) (k : Nat) (p : Pc), s.components[k]? = some (.pc p) → p.reg.width = 16 →
    (∀ (v : Bits) (load increment reset : Bit), v.length = 16 →
      ∃ reg : Register,
        exec (.pcSetInput (.ofTop k) v load increment reset) s =
          .next { s with
            components := s.components.set k (.pc ⟨wordOfBits v, load, increment, reset, reg⟩), reply := .done } ∧
        reg.output = p.reg.output ∧
        reg.bits.map (fun b => b.cell.prev) = p.reg.bits.map (fun b => b.cell.prev) ∧
        reg.bits.map (fun b => (b.recLoad, b.recValue, b.cell.pending)) =
          (bitsOfWord (if reset then 0 else if load then wordOfBits v else if increment then p.value + 1 else p.value)).map
            (fun n => (true, n, n))) ∧
    ∃ reg : Register,
      exec (.pcRecompute (.ofTop k)) s =
        .next { s with
          components := s.components.set k (.pc ⟨p.recInputValue, p.recLoad, p.recIncrement, p.recReset, reg⟩)
          reply := .done } ∧
      reg.output = p.reg.output ∧
      reg.bits.map (fun b => b.cell.prev) = p.reg.bits.map (fun b => b.cell.prev) ∧
      reg.bits.map (fun b => (b.recLoad, b.recValue, b.cell.pending)) =
        (bitsOfWord (if p.recReset then 0 else if p.recLoad then p.recInputValue
          else if p.recIncrement then p.value + 1 else p.value)).map (fun n => (true, n, n))

/-- R164: PC.GET_OUTPUT returns the committed count, 0 at construction, and writes nothing. -/
def Obligations.PcGetOutputReturnsTheCount : Prop :=
  (∀ (s : State) (k : Nat) (p : Pc), s.components[k]? = some (.pc p) → p.reg.width = 16 →
    exec (.pcGetOutput (.ofTop k)) s = .next { s with reply := .bits (bitsOfWord p.value) }) ∧
  Pc.init.value = 0

/-- R165, R160: PC.ON_CLOCK chooses the next value from the count before the edge and the recorded operands and gives it to the
Register with load 1 forced (R161); on a rising edge it becomes the count, on any other call the count stays; the recorded
operands stay in force and the level is recorded. -/
def Obligations.PcOnClockCommitsTheNextValue : Prop :=
  ∀ (s : State) (k : Nat) (p : Pc) (level prev : Bit), s.components[k]? = some (.pc p) → p.reg.width = 16 →
    (Component.pc p).levelIs prev = true →
    ∃ reg : Register,
      exec (.pcOnClock (.ofTop k) level) s =
        .next { s with
          components := s.components.set k (.pc ⟨p.recInputValue, p.recLoad, p.recIncrement, p.recReset, reg⟩)
          reply := .done } ∧
      (∀ b ∈ reg.bits, b.cell.prev = level) ∧
      reg.bits.map (fun b => (b.recLoad, b.recValue, b.cell.pending)) =
        (bitsOfWord (if p.recReset then 0 else if p.recLoad then p.recInputValue
          else if p.recIncrement then p.value + 1 else p.value)).map (fun n => (true, n, n)) ∧
      wordOfBits reg.output =
        if prev = false ∧ level = true then
          (if p.recReset then 0 else if p.recLoad then p.recInputValue
            else if p.recIncrement then p.value + 1 else p.value)
        else p.value

/-- R166: with reset, load and increment all 1, after one tick the Program Counter outputs 0; with reset 0, load 1 and
increment 1 it outputs the loaded value. -/
def Obligations.PcPriority : Prop :=
  ∀ (s : State) (k : Nat) (p : Pc) (v : Bits), s.components[k]? = some (.pc p) → p.reg.width = 16 →
    (Component.pc p).levelIs false = true → k ∈ s.clock.subscribers → v.length = 16 →
    (∃ t, perform [.pcSetInput (.ofTop k) v true true true, .clockTick, .pcGetOutput (.ofTop k)] s = .next t ∧
      t.reply = .bits (List.replicate 16 false)) ∧
    ∃ t, perform [.pcSetInput (.ofTop k) v true true false, .clockTick, .pcGetOutput (.ofTop k)] s = .next t ∧
      t.reply = .bits v

/-- R167: with only increment recorded, n consecutive ticks from the value V give `(V + n) mod 2^16`. For a Program Counter that is
subscribed more than once, that a tick counts once rests on the two passes of decision D3 (log 11, a choice and not the
source's; R184). -/
def Obligations.PcCountsTicks : Prop :=
  ∀ (s : State) (k : Nat) (p : Pc) (n : Nat), s.components[k]? = some (.pc p) → p.reg.width = 16 →
    (Component.pc p).levelIs false = true → k ∈ s.clock.subscribers →
    p.recReset = false → p.recLoad = false → p.recIncrement = true →
    ∃ p', (ticks n s).components[k]? = some (.pc p') ∧ p'.value.toNat = (p.value.toNat + n) % 2 ^ 16

/-! ### Clock -/

/-- R180 (decision D11): CLOCK.SUBSCRIBE appends the named top-level components in the given order, repetitions included, and
writes nothing else; if one of them is owned by another component, and all of them exist, it is refused. -/
def Obligations.SubscribeAppendsInOrder : Prop :=
  ∀ (s : State) (ks : List Nat), (∀ k ∈ ks, k < s.components.length) →
    exec (.clockSubscribe (ks.map Ref.ofTop)) s =
      .next { s with clock := ⟨s.clock.elapsedTicks, s.clock.subscribers ++ ks⟩, reply := .done } ∧
    ∀ (c : Ref) (cs : List Ref), s.owned c = true →
      exec (.clockSubscribe (ks.map Ref.ofTop ++ c :: cs)) s = .refused .ownedComponent

/-- R103, R113, R118, R133, R165: an ON_CLOCK on a component of its own kind is the edge that CLOCK.TICK gives to a subscriber,
`Component.onClock`; it changes nothing else, returns nothing, and cannot fail (R203). -/
def Obligations.OnClockIsTheEdgeOfItsComponent : Prop :=
  ∀ (i : Instr) (s : State) (k : Nat) (comp : Component) (level : Bit), i.onClockOf = some (.ofTop k, level) →
    s.components[k]? = some comp → i.fits comp = true →
    exec i s = .next { s with components := s.components.set k (comp.onClock level), reply := .done }

/-- R181, R184 (decisions D3, D4): CLOCK.TICK gives every subscribed component one rising edge and then one falling edge, the same
for one subscription as for several, leaves every other component as it is, and counts itself. -/
def Obligations.TickClocksEverySubscriber : Prop :=
  ∀ s : State, ∃ comps : List Component,
    exec .clockTick s =
      .next { s with
        components := comps, clock := ⟨s.clock.elapsedTicks + 1, s.clock.subscribers⟩, reply := .done } ∧
    comps.length = s.components.length ∧
    ∀ (k : Nat) (comp : Component), s.components[k]? = some comp →
      comps[k]? = some (if k ∈ s.clock.subscribers then (comp.onClock true).onClock false else comp)

/-- R182 (decision D4): CLOCK.ELAPSED_TICKS returns the tick count and writes nothing. -/
def Obligations.ElapsedTicksReturnsTheCount : Prop :=
  ∀ s : State, exec .clockElapsedTicks s = .next { s with reply := .count s.clock.elapsedTicks }

/-- R183: the state of the components after a TICK does not depend on the order of the subscribers. -/
def Obligations.TickDoesNotDependOnTheOrder : Prop :=
  ∀ (s : State) (subs : List Nat), subs.Perm s.clock.subscribers →
    ({ s with clock := ⟨s.clock.elapsedTicks, subs⟩ } : State).tick.components = s.tick.components

/-- R185, R229: after a TICK every subscribed component is at clock level 0; one that was left at level 1 commits nothing in that
TICK. That a caller may drive a component directly and so leave it at level 1 is decision D12 (log 15), and that it commits
nothing also when it is subscribed more than once rests on the two passes of decision D3 (log 11); both are choices and not
the source's. -/
def Obligations.TickLeavesSubscribersLow : Prop :=
  ∀ (s : State) (k : Nat) (comp : Component), s.components[k]? = some comp → k ∈ s.clock.subscribers →
    ∃ comp', s.tick.components[k]? = some comp' ∧ comp'.levelIs false = true ∧
      (comp.wf = true → comp.levelIs true = true → comp'.visible = comp.visible)

/-- R43: the tick count is used by no component: no operation but CLOCK.ELAPSED_TICKS behaves differently under another count. -/
def Obligations.TickCountIsUsedByNoOperation : Prop :=
  ∀ (i : Instr) (s : State) (n : Nat), i ≠ .clockElapsedTicks →
    (∀ t, exec i s = .next t →
      exec i { s with clock := ⟨n, s.clock.subscribers⟩ } =
        .next { t with clock := ⟨n + (t.clock.elapsedTicks - s.clock.elapsedTicks), t.clock.subscribers⟩ }) ∧
    ∀ r, exec i s = .refused r → exec i { s with clock := ⟨n, s.clock.subscribers⟩ } = .refused r

/-! ### Rules about all operations -/

/-- From R225 and R72: any number of operations that bring no edge at all, every SET_INPUT, RECOMPUTE and read among them, leave
every output unchanged. An ON_CLOCK or a TICK, which R225 admits where it is no rising edge, is not among them; that such an
ON_CLOCK leaves every output unchanged is `Obligations.StoredValuesChangeOnlyOnARisingEdge`. -/
def Obligations.OutputsChangeOnlyAtAnEdge : Prop :=
  ∀ (is : List Instr) (s t : State), s.wf = true → (∀ i ∈ is, i.clocks = false) → perform is s = .next t →
    t.outputs = s.outputs

/-- R19: a rising edge is the only condition under which a stored value changes: an ON_CLOCK with level 0, or on a component whose
Cells have all seen level 1, leaves every output unchanged, and so does a second ON_CLOCK with level 1 (R104, R228). -/
def Obligations.StoredValuesChangeOnlyOnARisingEdge : Prop :=
  ∀ (i : Instr) (k : Nat) (level : Bit) (s t : State), s.wf = true → i.onClockOf = some (.ofTop k, level) →
    exec i s = .next t →
    (level = false → t.outputs = s.outputs) ∧
    (∀ comp, s.components[k]? = some comp → comp.levelIs true = true → t.outputs = s.outputs) ∧
    (level = true → ∃ u, exec i t = .next u ∧ u.outputs = t.outputs)

/-- R200, R201, R203 (decisions D8, D17): only an operation with a shape check raises InvalidInputShape, and one that raises it
leaves every recorded input, pending input, stored bit, clock level and Clock field as it was. -/
def Obligations.RaisedConditionWritesNothing : Prop :=
  ∀ (i : Instr) (s t : State) (expected actual : Nat), exec i s = .next t →
    t.reply = .invalidInputShape expected actual →
    i.checked = true ∧ expected ≠ actual ∧ t = { s with reply := .invalidInputShape expected actual }

/-- R86, R200, R204 (decisions D8, D9): an operand of the wrong length raises InvalidInputShape with the expected and the actual
length: N for REG.SET_INPUT, 16 for PC.SET_INPUT; for SET_INPUT and INDEX_WRITE of a RAM level 16 for the word, checked first,
then A for the address; A for its reads. -/
def Obligations.WrongLengthsRaiseTheCondition : Prop :=
  (∀ (s : State) (k : Nat) (r : Register) (bits : Bits) (load : Bit), s.components[k]? = some (.reg r) →
    bits.length ≠ r.bits.length →
    exec (.regSetInput (.ofTop k) bits load) s =
      .next { s with reply := .invalidInputShape r.bits.length bits.length }) ∧
  (∀ (s : State) (k : Nat) (p : Pc) (v : Bits) (load increment reset : Bit), s.components[k]? = some (.pc p) →
    v.length ≠ 16 →
    exec (.pcSetInput (.ofTop k) v load increment reset) s = .next { s with reply := .invalidInputShape 16 v.length }) ∧
  ∀ (X : Level) (s : State) (k : Nat) (m : Ram) (word address : Bits) (load : Bit), s.components[k]? = some (.ram m) →
    m.level = X →
    (word.length ≠ 16 →
      exec (X.setInput (.ofTop k) word address load) s = .next { s with reply := .invalidInputShape 16 word.length } ∧
      exec (X.indexWrite (.ofTop k) address word) s = .next { s with reply := .invalidInputShape 16 word.length }) ∧
    (word.length = 16 → address.length ≠ X.addrWidth →
      exec (X.setInput (.ofTop k) word address load) s =
        .next { s with reply := .invalidInputShape X.addrWidth address.length } ∧
      exec (X.indexWrite (.ofTop k) address word) s =
        .next { s with reply := .invalidInputShape X.addrWidth address.length }) ∧
    (address.length ≠ X.addrWidth →
      exec (X.getOutput (.ofTop k) address) s =
        .next { s with reply := .invalidInputShape X.addrWidth address.length } ∧
      exec (X.indexRead (.ofTop k) address) s =
        .next { s with reply := .invalidInputShape X.addrWidth address.length })

/-- R203: clock edges, reads and correctly-shaped writes cannot fail: every well-formed operation on components the instance
holds completes without the condition. -/
def Obligations.WellShapedOperationsComplete : Prop :=
  ∀ (i : Instr) (s : State), i.wellFormed = true → s.serves i = true →
    ∃ t, exec i s = .next t ∧ ∀ expected actual, t.reply ≠ .invalidInputShape expected actual

/-- R186, R206, R60 (decisions D11, D12): every operation on a component owned by another is refused; that this holds of every
operation and not of ON_CLOCK and SUBSCRIBE only is log 7. -/
def Obligations.OwnedComponentsAreRefused : Prop :=
  ∀ (i : Instr) (s : State) (c : Ref), i.refs = [c] → s.owned c = true → exec i s = .refused .ownedComponent

/-- The frame of every operation (R71, R215): the calls still waiting are untouched; a component that the operation does not name
is untouched unless the operation is CLOCK.TICK; the Clock is untouched unless it is CLOCK.TICK or CLOCK.SUBSCRIBE; and a read
(R68) changes nothing but the reply. -/
def Obligations.OperationsTouchOnlyWhatTheyName : Prop :=
  ∀ (i : Instr) (s t : State), exec i s = .next t →
    t.calls = s.calls ∧
    (∀ k, i ≠ .clockTick → Ref.ofTop k ∉ i.refs → t.components[k]? = s.components[k]?) ∧
    (i ≠ .clockTick → (∀ cs, i ≠ .clockSubscribe cs) → t.clock = s.clock) ∧
    (i.reads = true → t = { s with reply := t.reply })

/-- R73, R227: the last recorded inputs win: a second SET_INPUT before an edge leaves the state as if the first had not been
made. -/
def Obligations.LastRecordedInputsWin : Prop :=
  (∀ (s : State) (c : Ref) (d d' : Bit) (t : State), exec (.cellSetInput c d) s = .next t →
    exec (.cellSetInput c d') t = exec (.cellSetInput c d') s) ∧
  (∀ (s : State) (c : Ref) (v l v' l' : Bit) (t : State), exec (.bitSetInput c v l) s = .next t →
    exec (.bitSetInput c v' l') t = exec (.bitSetInput c v' l') s) ∧
  (∀ (s : State) (c : Ref) (v v' : Bits) (l l' : Bit) (t : State),
    (∀ r, s.components[c.top]? = some (.reg r) → v'.length = r.width) →
    exec (.regSetInput c v l) s = .next t → exec (.regSetInput c v' l') t = exec (.regSetInput c v' l') s) ∧
  (∀ (X : Level) (s : State) (c : Ref) (w a w' a' : Bits) (l l' : Bit) (t : State), w'.length = 16 →
    a'.length = X.addrWidth →
    exec (X.setInput c w a l) s = .next t → exec (X.setInput c w' a' l') t = exec (X.setInput c w' a' l') s) ∧
  ∀ (s : State) (c : Ref) (v v' : Bits) (l i r l' i' r' : Bit) (t : State), s.wf = true → v'.length = 16 →
    exec (.pcSetInput c v l i r) s = .next t → exec (.pcSetInput c v' l' i' r') t = exec (.pcSetInput c v' l' i' r') s
end

