-- ==== Sys2Proof/Laws/Memory.lean ====
section
/-! SUPPORT. Laws of the word array: every write keeps the canonical form, a read after a write, and the range of addresses. -/

namespace Sys2Proof.Machine

open Sys2Proof

@[simp] theorem memRead_nil (a : Nat) : memRead [] a = memDefault := rfl

theorem memWfFrom_mono {m : Memory} {lo lo' : Nat} (h : memWfFrom lo m = true) (hle : lo' ≤ lo) :
    memWfFrom lo' m = true := by
  cases m with
  | nil => rfl
  | cons e rest =>
    obtain ⟨k, v⟩ := e
    simp only [memWfFrom, Bool.and_eq_true, decide_eq_true_eq] at h ⊢
    exact ⟨⟨by omega, h.1.2⟩, h.2⟩

/-- Below every listed address a canonical array reads as the default. -/
theorem memRead_below {m : Memory} {lo a : Nat} (h : memWfFrom lo m = true) (ha : a < lo) : memRead m a = memDefault := by
  induction m generalizing lo with
  | nil => rfl
  | cons e rest ih =>
    obtain ⟨k, v⟩ := e
    simp only [memWfFrom, Bool.and_eq_true, decide_eq_true_eq] at h
    rw [memRead, if_neg (by omega)]
    exact ih h.2 (by omega)

theorem memWrite_wfFrom {m : Memory} {lo a : Nat} (w : Word) (h : memWfFrom lo m = true) (ha : lo ≤ a) :
    memWfFrom lo (memWrite m a w) = true := by
  induction m generalizing lo with
  | nil => by_cases hw : w = memDefault <;> simp [memWrite, memWfFrom, hw, ha]
  | cons e rest ih =>
    obtain ⟨k, v⟩ := e
    simp only [memWfFrom, Bool.and_eq_true, decide_eq_true_eq] at h
    obtain ⟨⟨hk, hv⟩, hr⟩ := h
    unfold memWrite
    split
    · split
      · simp [memWfFrom, hk, hv, hr]
      · simp only [memWfFrom, Bool.and_eq_true, decide_eq_true_eq]
        exact ⟨⟨ha, ‹_›⟩, ⟨⟨by omega, hv⟩, hr⟩⟩
    · split
      · subst a
        split
        · exact memWfFrom_mono hr (by omega)
        · simp [memWfFrom, *]
      · simp only [memWfFrom, Bool.and_eq_true, decide_eq_true_eq]
        exact ⟨⟨hk, hv⟩, ih hr (by omega)⟩

/-- A write keeps the canonical form. -/
theorem memWrite_wf {m : Memory} (a : Nat) (w : Word) (h : m.wf = true) : (memWrite m a w).wf = true :=
  memWrite_wfFrom w h (Nat.zero_le a)

/-- The empty array, every word zero, is canonical. -/
@[simp] theorem Memory.wf_nil : Memory.wf [] = true := rfl

theorem memRead_memWrite_from {m : Memory} {lo : Nat} (a b : Nat) (w : Word) (h : memWfFrom lo m = true) :
    memRead (memWrite m a w) b = if b = a then w else memRead m b := by
  induction m generalizing lo with
  | nil =>
    by_cases hw : w = memDefault
    · simp [memWrite, memRead, hw]
    · by_cases hb : b = a
      · simp [memWrite, memRead, hw, hb]
      · simp [memWrite, memRead, hw, hb, Ne.symm hb]
  | cons e rest ih =>
    obtain ⟨k, v⟩ := e
    simp only [memWfFrom, Bool.and_eq_true, decide_eq_true_eq] at h
    obtain ⟨⟨hk, hv⟩, hr⟩ := h
    unfold memWrite
    split
    · have hbelow : memRead ((k, v) :: rest) a = memDefault := by
        rw [memRead, if_neg (by omega)]; exact memRead_below hr (by omega)
      split
      · by_cases hb : b = a
        · subst hb; simp [*]
        · simp [hb]
      · by_cases hb : b = a
        · simp [hb, memRead]
        · rw [memRead, if_neg (Ne.symm hb), if_neg hb]
    · split
      · subst a
        have hbelow : memRead rest k = memDefault := memRead_below hr (by omega)
        split
        · by_cases hb : b = k
          · simp [*]
          · simp [hb, memRead, Ne.symm hb]
        · by_cases hb : b = k
          · simp [hb, memRead]
          · simp [hb, memRead, Ne.symm hb]
      · by_cases hb : k = b
        · subst hb
          have : ¬ k = a := fun hh => by omega
          simp [memRead, this]
        · rw [memRead, if_neg hb, ih hr, memRead, if_neg hb]

/-- Read after write: the written word at its address, the old word at every other. -/
theorem memRead_memWrite {m : Memory} (a b : Nat) (w : Word) (h : m.wf = true) :
    memRead (memWrite m a w) b = if b = a then w else memRead m b := memRead_memWrite_from a b w h

/-- Every entry after a write was there before or is the written one. -/
theorem mem_memWrite {m : Memory} {a : Nat} {w : Word} {e : Nat × Word} (h : e ∈ memWrite m a w) : e ∈ m ∨ e = (a, w) := by
  induction m with
  | nil =>
    unfold memWrite at h
    split at h
    · cases h
    · exact .inr (List.mem_singleton.mp h)
  | cons x rest ih =>
    unfold memWrite at h
    split at h
    · split at h
      · exact .inl h
      · exact (List.mem_cons.mp h).symm
    · split at h
      · split at h
        · exact .inl (List.mem_cons_of_mem _ h)
        · exact (List.mem_cons.mp h).symm.imp_left (List.mem_cons_of_mem _)
      · rcases List.mem_cons.mp h with rfl | h
        · exact .inl List.mem_cons_self
        · exact (ih h).imp_left (List.mem_cons_of_mem _)

/-- A write to an address below `size` keeps the array within it. -/
theorem memWrite_within {m : Memory} {size a : Nat} (w : Word) (h : m.within size = true) (ha : a < size) :
    (memWrite m a w).within size = true := by
  simp only [Memory.within, List.all_eq_true, decide_eq_true_eq] at h ⊢
  intro e he
  rcases mem_memWrite he with he | rfl
  · exact h e he
  · exact ha

end Sys2Proof.Machine
end

