-- ==== Sys2Proof/Laws/Operands.lean ====
section
/-! SUPPORT. Laws of bit sequences, words, the address split and the load lines. -/

namespace Sys2Proof.Machine

open Sys2Proof

@[simp] theorem uint_nil : uint [] = 0 := rfl
@[simp] theorem uint_cons (b : Bit) (bs : Bits) : uint (b :: bs) = b.toNat + 2 * uint bs := rfl

theorem uint_lt (bs : Bits) : uint bs < 2 ^ bs.length := by
  induction bs with
  | nil => simp
  | cons b bs ih => cases b <;> simp [Nat.pow_succ] <;> omega

theorem uint_append (as bs : Bits) : uint (as ++ bs) = uint as + 2 ^ as.length * uint bs := by
  induction as with
  | nil => simp
  | cons a as ih => simp [ih, Nat.pow_succ]; ring

@[simp] theorem natBits_length (n k : Nat) : (natBits n k).length = n := by
  induction n generalizing k with
  | zero => rfl
  | succ n ih => simp [natBits, ih]

theorem uint_natBits (n k : Nat) : uint (natBits n k) = k % 2 ^ n := by
  induction n generalizing k with
  | zero => simp [natBits, Nat.mod_one]
  | succ n ih =>
    have h : (k % 2 == 1).toNat = k % 2 := by rcases Nat.mod_two_eq_zero_or_one k with h | h <;> simp [h]
    rw [natBits, uint_cons, ih, h, Nat.pow_succ, Nat.mul_comm (2 ^ n) 2, Nat.mod_mul]

theorem natBits_uint (bs : Bits) : natBits bs.length (uint bs) = bs := by
  induction bs with
  | nil => rfl
  | cons b bs ih =>
    have h : (b.toNat + 2 * uint bs) / 2 = uint bs := by cases b <;> simp; omega
    have h' : ((b.toNat + 2 * uint bs) % 2 == 1) = b := by cases b <;> simp
    rw [List.length_cons, uint_cons, natBits, h, h', ih]

/-- A bit sequence is its length and its value. -/
theorem uint_inj {as bs : Bits} (hl : as.length = bs.length) (h : uint as = uint bs) : as = bs := by
  rw [← natBits_uint as, ← natBits_uint bs, hl, h]

@[simp] theorem bitsOfWord_length (w : Word) : (bitsOfWord w).length = 16 := natBits_length _ _

@[simp] theorem uint_bitsOfWord (w : Word) : uint (bitsOfWord w) = w.toNat := by
  rw [bitsOfWord, uint_natBits]; exact Nat.mod_eq_of_lt w.isLt

@[simp] theorem wordOfBits_bitsOfWord (w : Word) : wordOfBits (bitsOfWord w) = w := by
  simp [wordOfBits]

theorem bitsOfWord_wordOfBits {bs : Bits} (h : bs.length = 16) : bitsOfWord (wordOfBits bs) = bs := by
  have hlt := uint_lt bs
  rw [h] at hlt
  have hn : (wordOfBits bs).toNat = uint bs := by simp [wordOfBits]; omega
  rw [bitsOfWord, hn, wordWidth, ← h, natBits_uint]

/-- The address split (R83): for any sequence, the selector and the sub-address are the quotient and the remainder. -/
theorem uint_split (L : Nat) (a : Bits) : uint a = uint (addrSel L a) * 2 ^ L + uint (addrSub L a) := by
  rcases Nat.lt_or_ge a.length L with h | h
  · simp [addrSel, addrSub, List.drop_eq_nil_of_le (Nat.le_of_lt h), List.take_of_length_le (Nat.le_of_lt h)]
  · have := uint_append (a.take L) (a.drop L)
    rw [List.take_append_drop, List.length_take, Nat.min_eq_left h] at this
    rw [this, addrSel, addrSub, Nat.mul_comm, Nat.add_comm]

theorem uint_addrSub_lt (L : Nat) (a : Bits) : uint (addrSub L a) < 2 ^ L :=
  Nat.lt_of_lt_of_le (uint_lt _) (Nat.pow_le_pow_right (by decide) (by simp [addrSub]))

@[simp] theorem dmux_length (F : Nat) (x : Bit) (s : Bits) : (dmux F x s).length = F := by simp [dmux]

theorem dmux_getElem? (F : Nat) (x : Bit) (s : Bits) (k : Nat) :
    (dmux F x s)[k]? = if k < F then some (dmuxLine x s k) else none := by
  by_cases h : k < F <;> simp [dmux, h]

theorem Level.subWidth_eq (X : Level) : X.subWidth = X.selectors.tail.sum := by cases X <;> rfl
theorem Level.addrWidth_eq (X : Level) : X.addrWidth = X.selectors.sum := by cases X <;> rfl
theorem Level.fanOut_eq (X : Level) : X.fanOut = 2 ^ X.selWidth := by cases X <;> rfl
theorem Level.addrWidth_split (X : Level) : X.addrWidth = X.selWidth + X.subWidth := by cases X <;> rfl

end Sys2Proof.Machine
end

