-- ==== Sys2Proof/Laws/State.lean ====
section
/-! SUPPORT. The fields of State under the two ways an operation completes, the shape check, and the lookup of a component. -/

namespace Sys2Proof.Machine

open Sys2Proof

variable (s : State) (k : Nat) (comp : Component) (r : Reply)

@[simp] theorem State.put_components : (s.put k comp).components = s.components.set k comp := rfl
@[simp] theorem State.put_clock : (s.put k comp).clock = s.clock := rfl
@[simp] theorem State.put_calls : (s.put k comp).calls = s.calls := rfl
@[simp] theorem State.put_reply : (s.put k comp).reply = .done := rfl
@[simp] theorem State.answer_components : (s.answer r).components = s.components := rfl
@[simp] theorem State.answer_clock : (s.answer r).clock = s.clock := rfl
@[simp] theorem State.answer_calls : (s.answer r).calls = s.calls := rfl
@[simp] theorem State.answer_reply : (s.answer r).reply = r := rfl
@[simp] theorem State.answer_answer (r' : Reply) : (s.answer r).answer r' = s.answer r' := rfl

/-- Putting back the component that is there changes the reply only. -/
theorem State.put_same (h : s.components[k]? = some comp) : s.put k comp = s.answer .done := by
  obtain ⟨hk, rfl⟩ := List.getElem?_eq_some_iff.mp h
  simp [State.put, State.answer]

theorem checkShape_ok {e a : Nat} (ok : Result) (h : a = e) : checkShape e a s ok = ok := if_pos h

theorem checkShape_bad {e a : Nat} (ok : Result) (h : a ≠ e) :
    checkShape e a s ok = .next (s.answer (.invalidInputShape e a)) := if_neg h

/-- All a shape check can do. -/
theorem checkShape_next {s t : State} {e a : Nat} {ok : Result} (h : checkShape e a s ok = .next t) :
    (a = e ∧ ok = .next t) ∨ (a ≠ e ∧ t = s.answer (.invalidInputShape e a)) := by
  by_cases hl : a = e
  · exact .inl ⟨hl, (checkShape_ok s ok hl).symm.trans h⟩
  · rw [checkShape_bad s ok hl] at h
    exact .inr ⟨hl, by injection h with h; exact h.symm⟩

/-! ### Lookup -/

/-- A lookup succeeds exactly on the name of a top-level component. -/
theorem lookup_eq_ok {s : State} {c : Ref} {comp : Component} :
    s.lookup c = .ok comp ↔ c.path = [] ∧ s.components[c.top]? = some comp := by
  obtain ⟨top, path⟩ := c
  unfold State.lookup
  cases h : s.components[top]? with
  | none => simp
  | some x =>
    cases path with
    | nil => simp
    | cons j path =>
      simp only
      cases x.kind.along (j :: path) <;> simp

theorem lookup_ofTop {s : State} {k : Nat} {comp : Component} (h : s.components[k]? = some comp) :
    s.lookup (.ofTop k) = .ok comp := lookup_eq_ok.mpr ⟨rfl, h⟩

/-- The lookup of a component, when it depends on the components only. -/
theorem lookup_congr {s t : State} (h : t.components = s.components) (c : Ref) : t.lookup c = s.lookup c := by
  simp [State.lookup, h]

/-- All an operation of the Cell can do. -/
theorem onCell_next {c : Ref} {s t : State} {f : Cell → Result} (h : onCell c s f = .next t) :
    ∃ x, s.lookup c = .ok (.cell x) ∧ f x = .next t := by
  unfold onCell at h
  split at h
  · exact ⟨_, ‹_›, h⟩
  · cases h
  · cases h

/-- All an operation of the Loadable Bit can do. -/
theorem onBit_next {c : Ref} {s t : State} {f : LoadableBit → Result} (h : onBit c s f = .next t) :
    ∃ x, s.lookup c = .ok (.bit x) ∧ f x = .next t := by
  unfold onBit at h
  split at h
  · exact ⟨_, ‹_›, h⟩
  · cases h
  · cases h

/-- All an operation of the N-bit Register can do. -/
theorem onReg_next {c : Ref} {s t : State} {f : Register → Result} (h : onReg c s f = .next t) :
    ∃ x, s.lookup c = .ok (.reg x) ∧ f x = .next t := by
  unfold onReg at h
  split at h
  · exact ⟨_, ‹_›, h⟩
  · cases h
  · cases h

/-- All an operation of a RAM level can do. -/
theorem onRam_next {X : Level} {c : Ref} {s t : State} {f : Ram → Result} (h : onRam X c s f = .next t) :
    ∃ x, s.lookup c = .ok (.ram x) ∧ x.level = X ∧ f x = .next t := by
  unfold onRam at h
  split at h
  · split at h
    · exact ⟨_, ‹_›, ‹_›, h⟩
    · cases h
  · cases h
  · cases h

/-- All an operation of the Program Counter can do. -/
theorem onPc_next {c : Ref} {s t : State} {f : Pc → Result} (h : onPc c s f = .next t) :
    ∃ x, s.lookup c = .ok (.pc x) ∧ f x = .next t := by
  unfold onPc at h
  split at h
  · exact ⟨_, ‹_›, h⟩
  · cases h
  · cases h

theorem onCell_eq {s : State} {c : Ref} {x : Cell} (f : Cell → Result) (h : s.lookup c = .ok (.cell x)) :
    onCell c s f = f x := by simp [onCell, h]

theorem onBit_eq {s : State} {c : Ref} {x : LoadableBit} (f : LoadableBit → Result) (h : s.lookup c = .ok (.bit x)) :
    onBit c s f = f x := by simp [onBit, h]

theorem onReg_eq {s : State} {c : Ref} {x : Register} (f : Register → Result) (h : s.lookup c = .ok (.reg x)) :
    onReg c s f = f x := by simp [onReg, h]

theorem onRam_eq {s : State} {c : Ref} {x : Ram} (f : Ram → Result) (h : s.lookup c = .ok (.ram x)) :
    onRam x.level c s f = f x := by simp [onRam, h]

theorem onPc_eq {s : State} {c : Ref} {x : Pc} (f : Pc → Result) (h : s.lookup c = .ok (.pc x)) :
    onPc c s f = f x := by simp [onPc, h]

end Sys2Proof.Machine
end

