-- ==== Sys2Proof/Laws/Components.lean ====
section
/-! SUPPORT. What each operation of a component does to it: the fields it writes, the committed value, the clock level, and
the invariant. -/

namespace Sys2Proof.Machine

open Sys2Proof

/-! ### Loadable Bit -/

section LoadableBit

variable (b : LoadableBit) (v l : Bit) (level : Bit)

@[simp] theorem LoadableBit.setInput_recValue : (b.setInput v l).recValue = v := rfl
@[simp] theorem LoadableBit.setInput_recLoad : (b.setInput v l).recLoad = l := rfl
@[simp] theorem LoadableBit.setInput_output : (b.setInput v l).output = b.output := rfl
@[simp] theorem LoadableBit.setInput_prev : (b.setInput v l).cell.prev = b.cell.prev := rfl
@[simp] theorem LoadableBit.setInput_pending : (b.setInput v l).cell.pending = mux l b.output v := rfl
@[simp] theorem LoadableBit.setInput_settled : (b.setInput v l).settled = true := by
  simp [LoadableBit.settled, LoadableBit.setInput, Cell.setInput]
@[simp] theorem LoadableBit.setInput_setInput (v' l' : Bit) : (b.setInput v l).setInput v' l' = b.setInput v' l' := rfl

@[simp] theorem LoadableBit.recompute_recValue : b.recompute.recValue = b.recValue := rfl
@[simp] theorem LoadableBit.recompute_recLoad : b.recompute.recLoad = b.recLoad := rfl
@[simp] theorem LoadableBit.recompute_output : b.recompute.output = b.output := rfl
@[simp] theorem LoadableBit.recompute_prev : b.recompute.cell.prev = b.cell.prev := rfl
@[simp] theorem LoadableBit.recompute_settled : b.recompute.settled = true := by
  simp [LoadableBit.settled, LoadableBit.recompute, Cell.setInput]

@[simp] theorem LoadableBit.onClock_recValue : (b.onClock level).recValue = b.recValue := rfl
@[simp] theorem LoadableBit.onClock_recLoad : (b.onClock level).recLoad = b.recLoad := rfl
@[simp] theorem LoadableBit.onClock_prev : (b.onClock level).cell.prev = level := rfl

/-- On a rising edge the recorded value is committed if load is recorded; on any other call nothing is (R113, R114). -/
theorem LoadableBit.onClock_output :
    (b.onClock level).output = if rising b.cell.prev level && b.recLoad then b.recValue else b.output := by
  cases hr : rising b.cell.prev level <;> cases hl : b.recLoad <;>
    simp [LoadableBit.onClock, LoadableBit.output, LoadableBit.recompute, Cell.output, Cell.onClock, Cell.setInput, mux, hr, hl]

@[simp] theorem LoadableBit.onClock_settled : (b.onClock level).settled = true := by
  cases hr : rising b.cell.prev level <;> cases hl : b.recLoad <;>
    simp [LoadableBit.onClock, LoadableBit.settled, LoadableBit.recompute, Cell.onClock, Cell.setInput, mux, hr, hl]

/-- A Loadable Bit is its flat view together with its settled pending input. -/
theorem LoadableBit.ext_of_settled {b b' : LoadableBit} (h : b.settled = true) (h' : b'.settled = true)
    (hf : b.flat = b'.flat) : b = b' := by
  obtain ⟨v, l, p, st, pr⟩ := b
  obtain ⟨v', l', p', st', pr'⟩ := b'
  simp only [LoadableBit.flat, FlatBit.mk.injEq] at hf
  obtain ⟨rfl, rfl, rfl, rfl⟩ := hf
  simp only [LoadableBit.settled, beq_iff_eq] at h h'
  rw [h, h']

@[simp] theorem LoadableBit.onClock_flat : (b.onClock level).flat = b.flat.onClock level := by
  have := b.onClock_output level
  simp only [LoadableBit.output, Cell.output] at this
  simp [LoadableBit.flat, FlatBit.onClock, this]

/-- A second call with the same level changes nothing (R104, R106). -/
@[simp] theorem LoadableBit.onClock_onClock : (b.onClock level).onClock level = b.onClock level := by
  apply LoadableBit.ext_of_settled (by simp) (by simp)
  cases level <;> simp [FlatBit.onClock, rising]

/-- Clocking a settled bit does not depend on having recomputed it. -/
theorem LoadableBit.recompute_eq {b : LoadableBit} (h : b.settled = true) : b.recompute = b :=
  LoadableBit.ext_of_settled (by simp) h rfl

end LoadableBit

/-! ### N-bit Register -/

section Register

variable (r : Register) (bits : Bits) (l level : Bit)

theorem Register.setInput_width (h : r.width ≤ bits.length) : (r.setInput bits l).width = r.width := by
  simp only [Register.width] at h ⊢; simp [Register.setInput, h]

@[simp] theorem Register.recompute_width : r.recompute.width = r.width := by simp [Register.width, Register.recompute]
@[simp] theorem Register.onClock_width : (r.onClock level).width = r.width := by simp [Register.width, Register.onClock]

/-- Bit i of a Register after SET_INPUT (R115). -/
theorem Register.setInput_getElem? (i : Nat) :
    (r.setInput bits l).bits[i]? =
      match r.bits[i]?, bits[i]? with
      | some b, some v => some (b.setInput v l)
      | _, _ => none := by
  simp only [Register.setInput, List.getElem?_zipWith]
  cases r.bits[i]? <;> cases bits[i]? <;> rfl

theorem zipWith_map_left {α β γ δ : Type} (f : α → β → γ) (g : γ → δ) (g' : α → δ) (hg : ∀ a b, g (f a b) = g' a)
    (as : List α) (bs : List β) (h : as.length ≤ bs.length) : (List.zipWith f as bs).map g = as.map g' := by
  induction as generalizing bs with
  | nil => simp
  | cons a as ih =>
    cases bs with
    | nil => simp at h
    | cons b bs => simp [hg, ih bs (by simpa using h)]

theorem zipWith_map_right {α β γ δ : Type} (f : α → β → γ) (g : γ → δ) (g' : β → δ) (hg : ∀ a b, g (f a b) = g' b)
    (as : List α) (bs : List β) (h : bs.length ≤ as.length) : (List.zipWith f as bs).map g = bs.map g' := by
  induction bs generalizing as with
  | nil => simp
  | cons b bs ih =>
    cases as with
    | nil => simp at h
    | cons a as => simp [hg, ih as (by simpa using h)]

theorem Register.setInput_output (h : r.width ≤ bits.length) : (r.setInput bits l).output = r.output :=
  zipWith_map_left _ _ _ (fun b v => b.setInput_output v l) _ _ h

theorem Register.setInput_prevs (h : r.width ≤ bits.length) :
    (r.setInput bits l).bits.map (fun b => b.cell.prev) = r.bits.map (fun b => b.cell.prev) :=
  zipWith_map_left (fun (b : LoadableBit) v => b.setInput v l) (fun b => b.cell.prev) (fun b => b.cell.prev)
    (fun _ _ => rfl) r.bits bits h

theorem Register.setInput_recValues (h : bits.length = r.width) :
    (r.setInput bits l).bits.map LoadableBit.recValue = bits := by
  have := zipWith_map_right (fun (b : LoadableBit) v => b.setInput v l) LoadableBit.recValue id (fun _ _ => rfl)
    r.bits bits (by simp [h, Register.width])
  simpa [Register.setInput] using this

/-- Every bit after SET_INPUT is one of the old bits with an input of its own. -/
theorem Register.mem_setInput {x : LoadableBit} (h : x ∈ (r.setInput bits l).bits) :
    ∃ b ∈ r.bits, ∃ v, x = b.setInput v l := by
  obtain ⟨i, hi, rfl⟩ := List.getElem_of_mem h
  have hi' : i < r.bits.length ∧ i < bits.length := by
    rwa [Register.setInput, List.length_zipWith, Nat.lt_min] at hi
  exact ⟨r.bits[i]'hi'.1, List.getElem_mem _, bits[i]'hi'.2, List.getElem_zipWith ..⟩

/-- The bits of a uniform Register, one by one (R33, R36, R48). -/
theorem Register.uniform_iff : r.uniform = true ↔
    ∀ b ∈ r.bits, b.settled = true ∧ b.recLoad = r.sharedLoad ∧ b.cell.prev = r.sharedPrev := by
  simp [Register.uniform, and_assoc]

/-- A Register is uniform as soon as its bits agree on some load and some level. -/
theorem Register.uniform_of {r : Register} {load prev : Bit}
    (h : ∀ b ∈ r.bits, b.settled = true ∧ b.recLoad = load ∧ b.cell.prev = prev) : r.uniform = true := by
  obtain ⟨bs⟩ := r
  cases bs with
  | nil => rfl
  | cons a as =>
    have ha := h a List.mem_cons_self
    rw [Register.uniform_iff]
    intro b hb
    have := h b hb
    simp [Register.sharedLoad, Register.sharedPrev, this, ha]

/-- SET_INPUT on a Register whose bits share a clock level makes it uniform. -/
theorem Register.setInput_uniform {r : Register} (h : r.uniform = true) (bits : Bits) (l : Bit) :
    (r.setInput bits l).uniform = true := by
  apply Register.uniform_of (load := l) (prev := r.sharedPrev)
  intro x hx
  obtain ⟨b, hb, v, rfl⟩ := r.mem_setInput bits l hx
  exact ⟨by simp, rfl, (r.uniform_iff.mp h b hb).2.2⟩

theorem Register.recompute_uniform {r : Register} (h : r.uniform = true) : r.recompute.uniform = true := by
  apply Register.uniform_of (load := r.sharedLoad) (prev := r.sharedPrev)
  intro x hx
  obtain ⟨b, hb, rfl⟩ := List.mem_map.mp hx
  have := r.uniform_iff.mp h b hb
  exact ⟨by simp, this.2⟩

theorem Register.onClock_uniform {r : Register} (h : r.uniform = true) (level : Bit) :
    (r.onClock level).uniform = true := by
  apply Register.uniform_of (load := r.sharedLoad) (prev := level)
  intro x hx
  obtain ⟨b, hb, rfl⟩ := List.mem_map.mp hx
  exact ⟨by simp, (r.uniform_iff.mp h b hb).2.1, by simp⟩

@[simp] theorem Register.recompute_output : r.recompute.output = r.output := by
  simp [Register.recompute, Register.output]

@[simp] theorem Register.output_length : r.output.length = r.width := by simp [Register.output, Register.width]

/-- The committed bits after an edge (R118, R119). -/
theorem Register.onClock_output {prev : Bit} (h : ∀ b ∈ r.bits, b.recLoad = l ∧ b.cell.prev = prev) :
    (r.onClock level).output = if rising prev level && l then r.bits.map LoadableBit.recValue else r.output := by
  simp only [Register.onClock, Register.output, List.map_map]
  split
  · rename_i hr
    exact List.map_congr_left fun b hb => by simp [LoadableBit.onClock_output, h b hb, hr]
  · rename_i hr
    exact List.map_congr_left fun b hb => by simp [LoadableBit.onClock_output, h b hb, hr]

/-- A call that is no rising edge for any bit commits nothing. -/
theorem Register.onClock_output_hold (h : level = false ∨ ∀ b ∈ r.bits, b.cell.prev = true) :
    (r.onClock level).output = r.output := by
  simp only [Register.onClock, Register.output, List.map_map]
  refine List.map_congr_left fun b hb => ?_
  rcases h with rfl | h
  · simp [LoadableBit.onClock_output, rising]
  · simp [LoadableBit.onClock_output, rising, h b hb]

@[simp] theorem Register.onClock_onClock : (r.onClock level).onClock level = r.onClock level := by
  simp [Register.onClock]

/-- A second SET_INPUT with as many bits replaces the first (R73). -/
theorem Register.setInput_setInput (bits' : Bits) (l' : Bit) (h : bits'.length = bits.length) :
    (r.setInput bits l).setInput bits' l' = r.setInput bits' l' := by
  obtain ⟨bs⟩ := r
  simp only [Register.setInput, Register.mk.injEq]
  induction bs generalizing bits bits' with
  | nil => simp
  | cons x xs ih =>
    match bits, bits', h with
    | [], [], _ => simp
    | y :: ys, z :: zs, h => simp [ih ys zs (by simpa using h)]

end Register

/-! ### RAM level -/

section Ram

variable (m : Ram) (level : Bit)

/-- The word array after ON_CLOCK reads the recorded word at the recorded address after a commit (R133, R142). -/
theorem Ram.onClock_read {m : Ram} (h : m.mem.wf = true) (level : Bit) (a : Nat) :
    memRead (m.onClock level).mem a =
      if (rising m.prev level && m.recLoad) = true ∧ a = uint m.recAddress then m.recWord else memRead m.mem a := by
  cases hc : rising m.prev level && m.recLoad
  · simp [Ram.onClock, hc]
  · simp [Ram.onClock, hc, memRead_memWrite _ _ _ h]

@[simp] theorem Ram.onClock_onClock : (m.onClock level).onClock level = m.onClock level := by
  cases level <;> simp [Ram.onClock, rising]

end Ram

/-! ### Program Counter -/

section Pc

variable (p : Pc) (level : Bit)

theorem Pc.drive_width (h : p.reg.width ≤ 16) : p.drive.reg.width = p.reg.width :=
  Register.setInput_width _ _ _ (by simpa using h)

/-- Driving leaves the committed count (R72, R161). -/
theorem Pc.drive_output (h : p.reg.width ≤ 16) : p.drive.reg.output = p.reg.output :=
  Register.setInput_output _ _ _ (by simpa using h)

theorem Pc.drive_next (h : p.reg.width ≤ 16) : p.drive.next = p.next := by
  rw [Pc.next, Pc.value, p.drive_output h]; rfl

/-- Driving twice is driving once. -/
theorem Pc.drive_drive (h : p.reg.width ≤ 16) : p.drive.drive = p.drive := by
  rw [Pc.drive, p.drive_next h]
  simp only [Pc.drive]
  rw [Register.setInput_setInput _ _ _ _ _ rfl]

theorem Pc.onClock_width (h : p.reg.width ≤ 16) : (p.onClock level).reg.width = p.reg.width := by
  simp [Pc.onClock, Pc.drive_width p h]

/-- Whatever the Register's width was, a Program Counter that has been clocked has at most 16 bits. -/
theorem Pc.onClock_width_le : (p.onClock level).reg.width ≤ 16 := by
  simp [Pc.onClock, Pc.drive, Register.setInput, Register.width, Register.onClock]

/-- The bits a drive gives the Register: load 1, and the next value recorded and pending in each (R161). -/
theorem Pc.drive_bits (h : p.reg.width = 16) :
    p.drive.reg.bits.map (fun b => (b.recLoad, b.recValue, b.cell.pending)) =
      (bitsOfWord p.next).map fun n => (true, n, n) :=
  zipWith_map_right (fun (b : LoadableBit) v => b.setInput v true) (fun b => (b.recLoad, b.recValue, b.cell.pending))
    (fun n => (true, n, n)) (fun _ _ => rfl) _ _ (by simpa [Register.width] using h.ge)

theorem Pc.drive_prevs (h : p.reg.width ≤ 16) :
    p.drive.reg.bits.map (fun b => b.cell.prev) = p.reg.bits.map (fun b => b.cell.prev) :=
  Register.setInput_prevs _ _ _ (by simpa using h)

/-- The bits of a driven Register share load 1 and keep the clock level they share. -/
theorem Pc.mem_drive {b : LoadableBit} {prev : Bit} (hp : ∀ b ∈ p.reg.bits, b.cell.prev = prev)
    (hb : b ∈ p.drive.reg.bits) : b.recLoad = true ∧ b.cell.prev = prev := by
  obtain ⟨x, hx, v, rfl⟩ := p.reg.mem_setInput _ _ hb
  exact ⟨rfl, hp x hx⟩

/-- The count after an edge (R160, R165). -/
theorem Pc.onClock_value (h : p.reg.width = 16) {prev : Bit} (hp : ∀ b ∈ p.reg.bits, b.cell.prev = prev) :
    (p.onClock level).value = if rising prev level then p.next else p.value := by
  have hrec : p.drive.reg.bits.map LoadableBit.recValue = _ := Register.setInput_recValues p.reg _ true (by simp [h])
  have := p.drive.reg.onClock_output true level fun b hb => p.mem_drive hp hb
  rw [Pc.value, Pc.onClock, this, hrec, p.drive_output h.le]
  cases rising prev level <;> simp [Pc.value]

/-- A call that is no rising edge leaves the committed count (R165). -/
theorem Pc.onClock_output_hold (h : p.reg.width ≤ 16) (hp : level = false ∨ ∀ b ∈ p.reg.bits, b.cell.prev = true) :
    (p.onClock level).reg.output = p.reg.output := by
  rw [← p.drive_output h]
  exact Register.onClock_output_hold _ _ (hp.imp_right fun hp b hb => (p.mem_drive hp hb).2)

theorem Pc.onClock_prev : ∀ b ∈ (p.onClock level).reg.bits, b.cell.prev = level := by
  intro b hb
  obtain ⟨x, -, rfl⟩ := List.mem_map.mp hb
  rfl

theorem Pc.drive_uniform {p : Pc} (h : p.reg.uniform = true) : p.drive.reg.uniform = true :=
  Register.setInput_uniform h _ _

/-- Clocking again with the level every bit has seen changes only what the next drive sets anew. -/
theorem Pc.onClock_drive (h : p.reg.width ≤ 16) (hp : ∀ b ∈ p.reg.bits, b.cell.prev = level) :
    (p.onClock level).drive = p.drive := by
  have hv : (p.onClock level).next = p.next := by
    rw [Pc.next, Pc.value, Pc.onClock_output_hold p level h ?_]
    · rfl
    · cases level
      · exact .inl rfl
      · exact .inr hp
  have hbits : ∀ (bs : List LoadableBit) (vs : Bits), (∀ b ∈ bs, b.cell.prev = level) →
      List.zipWith (fun b v => b.setInput v true)
        ((List.zipWith (fun (b : LoadableBit) v => b.setInput v true) bs vs).map fun b => b.onClock level) vs =
      List.zipWith (fun b v => b.setInput v true) bs vs := by
    intro bs
    induction bs with
    | nil => simp
    | cons b bs ih =>
      intro vs hb
      cases vs with
      | nil => simp
      | cons v vs =>
        have hb0 : b.cell.prev = level := hb b List.mem_cons_self
        have : ((b.setInput v true).onClock level).setInput v true = b.setInput v true := by
          obtain ⟨rv, rl, ⟨pe, st, pr⟩⟩ := b
          simp only at hb0
          subst hb0
          cases pr <;> rfl
        rw [List.zipWith_cons_cons, List.map_cons, List.zipWith_cons_cons, this,
          ih vs fun x hx => hb x (List.mem_cons_of_mem _ hx)]
  rw [Pc.drive, hv, Pc.drive]
  simp only [Pc.onClock, Pc.drive, Register.onClock, Register.setInput, Pc.mk.injEq, Register.mk.injEq, true_and]
  exact hbits _ _ hp

end Pc

end Sys2Proof.Machine
end

