-- ==== Sys2Proof/Laws/Exec.lean ====
section
/-! SUPPORT. All that performing an operation can do (`exec_next`), in terms of what it does to the one component it is applied
to (`Instr.act`), and the lemmas on that which the rules about all operations need. -/

namespace Sys2Proof

open Sys2Proof.Machine

/-- What an operation that writes a component makes of it; a component of another kind, or the component of a read, stays. -/
def Instr.act (i : Instr) (comp : Component) : Component :=
  match i, comp with
  | .cellSetInput _ d, .cell x => .cell (x.setInput d)
  | .cellOnClock _ level, .cell x => .cell (x.onClock level)
  | .bitSetInput _ v l, .bit b => .bit (b.setInput v l)
  | .bitRecompute _, .bit b => .bit b.recompute
  | .bitOnClock _ level, .bit b => .bit (b.onClock level)
  | .regSetInput _ bits l, .reg r => .reg (r.setInput bits l)
  | .regRecompute _, .reg r => .reg r.recompute
  | .regOnClock _ level, .reg r => .reg (r.onClock level)
  | .ram8SetInput _ w a l, .ram m => .ram (m.setInput w a l)
  | .ram8IndexWrite _ a w, .ram m => .ram (m.setInput w a true)
  | .ram8OnClock _ level, .ram m => .ram (m.onClock level)
  | .ram64SetInput _ w a l, .ram m => .ram (m.setInput w a l)
  | .ram64IndexWrite _ a w, .ram m => .ram (m.setInput w a true)
  | .ram64OnClock _ level, .ram m => .ram (m.onClock level)
  | .ram512SetInput _ w a l, .ram m => .ram (m.setInput w a l)
  | .ram512IndexWrite _ a w, .ram m => .ram (m.setInput w a true)
  | .ram512OnClock _ level, .ram m => .ram (m.onClock level)
  | .ram4kSetInput _ w a l, .ram m => .ram (m.setInput w a l)
  | .ram4kIndexWrite _ a w, .ram m => .ram (m.setInput w a true)
  | .ram4kOnClock _ level, .ram m => .ram (m.onClock level)
  | .ram16kSetInput _ w a l, .ram m => .ram (m.setInput w a l)
  | .ram16kIndexWrite _ a w, .ram m => .ram (m.setInput w a true)
  | .ram16kOnClock _ level, .ram m => .ram (m.onClock level)
  | .pcSetInput _ v l inc rst, .pc p => .pc (p.setInput v l inc rst)
  | .pcRecompute _, .pc p => .pc p.recompute
  | .pcOnClock _ level, .pc p => .pc (p.onClock level)
  | _, comp => comp

end Sys2Proof

namespace Sys2Proof.Machine

open Sys2Proof

/-- How an operation completes. -/
inductive Completes (i : Instr) (s : State) : State → Prop where
  /-- A read returns a value. -/
  | read (c : Ref) (comp : Component) (r : Reply) (hc : i.refs = [c]) (hp : c.path = [])
      (hk : s.components[c.top]? = some comp) (hf : i.fits comp = true) (hr : i.reads = true)
      (hn : ∀ e a, r ≠ .invalidInputShape e a) : Completes i s (s.answer r)
  /-- A shape check fails. -/
  | raised (c : Ref) (e a : Nat) (hc : i.refs = [c]) (hp : c.path = []) (hck : i.checked = true) (hne : e ≠ a) :
      Completes i s (s.answer (.invalidInputShape e a))
  /-- The component is written. -/
  | wrote (c : Ref) (comp : Component) (hc : i.refs = [c]) (hp : c.path = []) (hk : s.components[c.top]? = some comp)
      (hf : i.fits comp = true) (hs : i.shapesOk = true) (hr : i.reads = false) :
      Completes i s (s.put c.top (i.act comp))
  /-- CLOCK.SUBSCRIBE. -/
  | subscribed (cs : List Ref) (ks : List Nat) (hi : i = .clockSubscribe cs) (hks : subscriberNumbers s cs = .ok ks) :
      Completes i s { s with clock := ⟨s.clock.elapsedTicks, s.clock.subscribers ++ ks⟩, reply := .done }
  /-- CLOCK.TICK. -/
  | ticked (hi : i = .clockTick) : Completes i s (s.tick.answer .done)
  /-- CLOCK.ELAPSED_TICKS. -/
  | counted (hi : i = .clockElapsedTicks) : Completes i s (s.answer (.count s.clock.elapsedTicks))

section shared

variable {s t : State} {c : Ref}

theorem ramSetInput_next {X : Level} {word address : Bits} {load : Bit} (h : ramSetInput X c word address load s = .next t) :
    c.path = [] ∧ ∃ m, s.components[c.top]? = some (.ram m) ∧ m.level = X ∧
      ((word.length = 16 ∧ address.length = X.addrWidth ∧ t = s.put c.top (.ram (m.setInput word address load))) ∨
        ∃ e a, e ≠ a ∧ t = s.answer (.invalidInputShape e a)) := by
  obtain ⟨m, hl, hX, h⟩ := onRam_next h
  rw [lookup_eq_ok] at hl
  refine ⟨hl.1, m, hl.2, hX, ?_⟩
  rcases checkShape_next h with ⟨hw, h⟩ | ⟨hw, rfl⟩
  · rcases checkShape_next h with ⟨ha, h⟩ | ⟨ha, rfl⟩
    · injection h with h
      exact .inl ⟨hw, ha, h.symm⟩
    · exact .inr ⟨_, _, Ne.symm ha, rfl⟩
  · exact .inr ⟨_, _, Ne.symm hw, rfl⟩

theorem ramGetOutput_next {X : Level} {address : Bits} (h : ramGetOutput X c address s = .next t) :
    c.path = [] ∧ ∃ m, s.components[c.top]? = some (.ram m) ∧ m.level = X ∧
      ((address.length = X.addrWidth ∧ t = s.answer (.bits (bitsOfWord (m.read address)))) ∨
        ∃ e a, e ≠ a ∧ t = s.answer (.invalidInputShape e a)) := by
  obtain ⟨m, hl, hX, h⟩ := onRam_next h
  rw [lookup_eq_ok] at hl
  refine ⟨hl.1, m, hl.2, hX, ?_⟩
  rcases checkShape_next h with ⟨ha, h⟩ | ⟨ha, rfl⟩
  · injection h with h
    exact .inl ⟨ha, h.symm⟩
  · exact .inr ⟨_, _, Ne.symm ha, rfl⟩

theorem ramRecompute_next {X : Level} (h : ramRecompute X c s = .next t) :
    c.path = [] ∧ ∃ m, s.components[c.top]? = some (.ram m) ∧ m.level = X ∧ t = s.put c.top (.ram m) := by
  obtain ⟨m, hl, hX, h⟩ := onRam_next h
  rw [lookup_eq_ok] at hl
  injection h with h
  exact ⟨hl.1, m, hl.2, hX, h.symm⟩

theorem ramOnClock_next {X : Level} {level : Bit} (h : ramOnClock X c level s = .next t) :
    c.path = [] ∧ ∃ m, s.components[c.top]? = some (.ram m) ∧ m.level = X ∧ t = s.put c.top (.ram (m.onClock level)) := by
  obtain ⟨m, hl, hX, h⟩ := onRam_next h
  rw [lookup_eq_ok] at hl
  injection h with h
  exact ⟨hl.1, m, hl.2, hX, h.symm⟩

end shared

/-- All that performing an operation can do. -/
theorem exec_next {i : Instr} {s t : State} (h : exec i s = .next t) : Completes i s t := by
  cases i
  case cellSetInput =>
    obtain ⟨x, hl, h⟩ := onCell_next h
    obtain ⟨hp, hk⟩ := lookup_eq_ok.mp hl
    injection h with h
    subst h
    exact .wrote _ (.cell x) rfl hp hk rfl rfl rfl
  case cellRecompute =>
    obtain ⟨x, hl, h⟩ := onCell_next h
    obtain ⟨hp, hk⟩ := lookup_eq_ok.mp hl
    injection h with h
    subst h
    exact .wrote _ (.cell x) rfl hp hk rfl rfl rfl
  case cellGetOutput =>
    obtain ⟨x, hl, h⟩ := onCell_next h
    obtain ⟨hp, hk⟩ := lookup_eq_ok.mp hl
    injection h with h
    subst h
    exact .read _ (.cell x) _ rfl hp hk rfl rfl (by simp)
  case cellOnClock =>
    obtain ⟨x, hl, h⟩ := onCell_next h
    obtain ⟨hp, hk⟩ := lookup_eq_ok.mp hl
    injection h with h
    subst h
    exact .wrote _ (.cell x) rfl hp hk rfl rfl rfl
  case bitSetInput =>
    obtain ⟨x, hl, h⟩ := onBit_next h
    obtain ⟨hp, hk⟩ := lookup_eq_ok.mp hl
    injection h with h
    subst h
    exact .wrote _ (.bit x) rfl hp hk rfl rfl rfl
  case bitRecompute =>
    obtain ⟨x, hl, h⟩ := onBit_next h
    obtain ⟨hp, hk⟩ := lookup_eq_ok.mp hl
    injection h with h
    subst h
    exact .wrote _ (.bit x) rfl hp hk rfl rfl rfl
  case bitGetOutput =>
    obtain ⟨x, hl, h⟩ := onBit_next h
    obtain ⟨hp, hk⟩ := lookup_eq_ok.mp hl
    injection h with h
    subst h
    exact .read _ (.bit x) _ rfl hp hk rfl rfl (by simp)
  case bitOnClock =>
    obtain ⟨x, hl, h⟩ := onBit_next h
    obtain ⟨hp, hk⟩ := lookup_eq_ok.mp hl
    injection h with h
    subst h
    exact .wrote _ (.bit x) rfl hp hk rfl rfl rfl
  case regSetInput =>
    obtain ⟨x, hl, h⟩ := onReg_next h
    obtain ⟨hp, hk⟩ := lookup_eq_ok.mp hl
    rcases checkShape_next h with ⟨hw, h⟩ | ⟨hw, rfl⟩
    · injection h with h
      subst h
      exact .wrote _ (.reg x) rfl hp hk (by simpa [Instr.fits] using hw) rfl rfl
    · exact .raised _ _ _ rfl hp rfl (Ne.symm hw)
  case regRecompute =>
    obtain ⟨x, hl, h⟩ := onReg_next h
    obtain ⟨hp, hk⟩ := lookup_eq_ok.mp hl
    injection h with h
    subst h
    exact .wrote _ (.reg x) rfl hp hk rfl rfl rfl
  case regGetOutput =>
    obtain ⟨x, hl, h⟩ := onReg_next h
    obtain ⟨hp, hk⟩ := lookup_eq_ok.mp hl
    injection h with h
    subst h
    exact .read _ (.reg x) _ rfl hp hk rfl rfl (by simp)
  case regOnClock =>
    obtain ⟨x, hl, h⟩ := onReg_next h
    obtain ⟨hp, hk⟩ := lookup_eq_ok.mp hl
    injection h with h
    subst h
    exact .wrote _ (.reg x) rfl hp hk rfl rfl rfl
  case pcSetInput =>
    obtain ⟨x, hl, h⟩ := onPc_next h
    obtain ⟨hp, hk⟩ := lookup_eq_ok.mp hl
    rcases checkShape_next h with ⟨hw, h⟩ | ⟨hw, rfl⟩
    · injection h with h
      subst h
      exact .wrote _ (.pc x) rfl hp hk rfl (by simpa [Instr.shapesOk] using hw) rfl
    · exact .raised _ _ _ rfl hp rfl (Ne.symm hw)
  case pcRecompute =>
    obtain ⟨x, hl, h⟩ := onPc_next h
    obtain ⟨hp, hk⟩ := lookup_eq_ok.mp hl
    injection h with h
    subst h
    exact .wrote _ (.pc x) rfl hp hk rfl rfl rfl
  case pcGetOutput =>
    obtain ⟨x, hl, h⟩ := onPc_next h
    obtain ⟨hp, hk⟩ := lookup_eq_ok.mp hl
    injection h with h
    subst h
    exact .read _ (.pc x) _ rfl hp hk rfl rfl (by simp)
  case pcOnClock =>
    obtain ⟨x, hl, h⟩ := onPc_next h
    obtain ⟨hp, hk⟩ := lookup_eq_ok.mp hl
    injection h with h
    subst h
    exact .wrote _ (.pc x) rfl hp hk rfl rfl rfl
  case ram8SetInput =>
    obtain ⟨hp, m, hk, hX, ⟨hw, ha, rfl⟩ | ⟨e, a, hne, rfl⟩⟩ := ramSetInput_next h
    · exact .wrote _ (.ram m) rfl hp hk (by simp [Instr.fits, hX]) (by simp [Instr.shapesOk, hw, ha]) rfl
    · exact .raised _ _ _ rfl hp rfl hne
  case ram8IndexWrite =>
    obtain ⟨hp, m, hk, hX, ⟨hw, ha, rfl⟩ | ⟨e, a, hne, rfl⟩⟩ := ramSetInput_next h
    · exact .wrote _ (.ram m) rfl hp hk (by simp [Instr.fits, hX]) (by simp [Instr.shapesOk, hw, ha]) rfl
    · exact .raised _ _ _ rfl hp rfl hne
  case ram8GetOutput =>
    obtain ⟨hp, m, hk, hX, ⟨ha, rfl⟩ | ⟨e, a, hne, rfl⟩⟩ := ramGetOutput_next h
    · exact .read _ (.ram m) _ rfl hp hk (by simp [Instr.fits, hX]) rfl (by simp)
    · exact .raised _ _ _ rfl hp rfl hne
  case ram8IndexRead =>
    obtain ⟨hp, m, hk, hX, ⟨ha, rfl⟩ | ⟨e, a, hne, rfl⟩⟩ := ramGetOutput_next h
    · exact .read _ (.ram m) _ rfl hp hk (by simp [Instr.fits, hX]) rfl (by simp)
    · exact .raised _ _ _ rfl hp rfl hne
  case ram8Recompute =>
    obtain ⟨hp, m, hk, hX, rfl⟩ := ramRecompute_next h
    exact .wrote _ (.ram m) rfl hp hk (by simp [Instr.fits, hX]) rfl rfl
  case ram8OnClock =>
    obtain ⟨hp, m, hk, hX, rfl⟩ := ramOnClock_next h
    exact .wrote _ (.ram m) rfl hp hk (by simp [Instr.fits, hX]) rfl rfl
  case ram64SetInput =>
    obtain ⟨hp, m, hk, hX, ⟨hw, ha, rfl⟩ | ⟨e, a, hne, rfl⟩⟩ := ramSetInput_next h
    · exact .wrote _ (.ram m) rfl hp hk (by simp [Instr.fits, hX]) (by simp [Instr.shapesOk, hw, ha]) rfl
    · exact .raised _ _ _ rfl hp rfl hne
  case ram64IndexWrite =>
    obtain ⟨hp, m, hk, hX, ⟨hw, ha, rfl⟩ | ⟨e, a, hne, rfl⟩⟩ := ramSetInput_next h
    · exact .wrote _ (.ram m) rfl hp hk (by simp [Instr.fits, hX]) (by simp [Instr.shapesOk, hw, ha]) rfl
    · exact .raised _ _ _ rfl hp rfl hne
  case ram64GetOutput =>
    obtain ⟨hp, m, hk, hX, ⟨ha, rfl⟩ | ⟨e, a, hne, rfl⟩⟩ := ramGetOutput_next h
    · exact .read _ (.ram m) _ rfl hp hk (by simp [Instr.fits, hX]) rfl (by simp)
    · exact .raised _ _ _ rfl hp rfl hne
  case ram64IndexRead =>
    obtain ⟨hp, m, hk, hX, ⟨ha, rfl⟩ | ⟨e, a, hne, rfl⟩⟩ := ramGetOutput_next h
    · exact .read _ (.ram m) _ rfl hp hk (by simp [Instr.fits, hX]) rfl (by simp)
    · exact .raised _ _ _ rfl hp rfl hne
  case ram64Recompute =>
    obtain ⟨hp, m, hk, hX, rfl⟩ := ramRecompute_next h
    exact .wrote _ (.ram m) rfl hp hk (by simp [Instr.fits, hX]) rfl rfl
  case ram64OnClock =>
    obtain ⟨hp, m, hk, hX, rfl⟩ := ramOnClock_next h
    exact .wrote _ (.ram m) rfl hp hk (by simp [Instr.fits, hX]) rfl rfl
  case ram512SetInput =>
    obtain ⟨hp, m, hk, hX, ⟨hw, ha, rfl⟩ | ⟨e, a, hne, rfl⟩⟩ := ramSetInput_next h
    · exact .wrote _ (.ram m) rfl hp hk (by simp [Instr.fits, hX]) (by simp [Instr.shapesOk, hw, ha]) rfl
    · exact .raised _ _ _ rfl hp rfl hne
  case ram512IndexWrite =>
    obtain ⟨hp, m, hk, hX, ⟨hw, ha, rfl⟩ | ⟨e, a, hne, rfl⟩⟩ := ramSetInput_next h
    · exact .wrote _ (.ram m) rfl hp hk (by simp [Instr.fits, hX]) (by simp [Instr.shapesOk, hw, ha]) rfl
    · exact .raised _ _ _ rfl hp rfl hne
  case ram512GetOutput =>
    obtain ⟨hp, m, hk, hX, ⟨ha, rfl⟩ | ⟨e, a, hne, rfl⟩⟩ := ramGetOutput_next h
    · exact .read _ (.ram m) _ rfl hp hk (by simp [Instr.fits, hX]) rfl (by simp)
    · exact .raised _ _ _ rfl hp rfl hne
  case ram512IndexRead =>
    obtain ⟨hp, m, hk, hX, ⟨ha, rfl⟩ | ⟨e, a, hne, rfl⟩⟩ := ramGetOutput_next h
    · exact .read _ (.ram m) _ rfl hp hk (by simp [Instr.fits, hX]) rfl (by simp)
    · exact .raised _ _ _ rfl hp rfl hne
  case ram512Recompute =>
    obtain ⟨hp, m, hk, hX, rfl⟩ := ramRecompute_next h
    exact .wrote _ (.ram m) rfl hp hk (by simp [Instr.fits, hX]) rfl rfl
  case ram512OnClock =>
    obtain ⟨hp, m, hk, hX, rfl⟩ := ramOnClock_next h
    exact .wrote _ (.ram m) rfl hp hk (by simp [Instr.fits, hX]) rfl rfl
  case ram4kSetInput =>
    obtain ⟨hp, m, hk, hX, ⟨hw, ha, rfl⟩ | ⟨e, a, hne, rfl⟩⟩ := ramSetInput_next h
    · exact .wrote _ (.ram m) rfl hp hk (by simp [Instr.fits, hX]) (by simp [Instr.shapesOk, hw, ha]) rfl
    · exact .raised _ _ _ rfl hp rfl hne
  case ram4kIndexWrite =>
    obtain ⟨hp, m, hk, hX, ⟨hw, ha, rfl⟩ | ⟨e, a, hne, rfl⟩⟩ := ramSetInput_next h
    · exact .wrote _ (.ram m) rfl hp hk (by simp [Instr.fits, hX]) (by simp [Instr.shapesOk, hw, ha]) rfl
    · exact .raised _ _ _ rfl hp rfl hne
  case ram4kGetOutput =>
    obtain ⟨hp, m, hk, hX, ⟨ha, rfl⟩ | ⟨e, a, hne, rfl⟩⟩ := ramGetOutput_next h
    · exact .read _ (.ram m) _ rfl hp hk (by simp [Instr.fits, hX]) rfl (by simp)
    · exact .raised _ _ _ rfl hp rfl hne
  case ram4kIndexRead =>
    obtain ⟨hp, m, hk, hX, ⟨ha, rfl⟩ | ⟨e, a, hne, rfl⟩⟩ := ramGetOutput_next h
    · exact .read _ (.ram m) _ rfl hp hk (by simp [Instr.fits, hX]) rfl (by simp)
    · exact .raised _ _ _ rfl hp rfl hne
  case ram4kRecompute =>
    obtain ⟨hp, m, hk, hX, rfl⟩ := ramRecompute_next h
    exact .wrote _ (.ram m) rfl hp hk (by simp [Instr.fits, hX]) rfl rfl
  case ram4kOnClock =>
    obtain ⟨hp, m, hk, hX, rfl⟩ := ramOnClock_next h
    exact .wrote _ (.ram m) rfl hp hk (by simp [Instr.fits, hX]) rfl rfl
  case ram16kSetInput =>
    obtain ⟨hp, m, hk, hX, ⟨hw, ha, rfl⟩ | ⟨e, a, hne, rfl⟩⟩ := ramSetInput_next h
    · exact .wrote _ (.ram m) rfl hp hk (by simp [Instr.fits, hX]) (by simp [Instr.shapesOk, hw, ha]) rfl
    · exact .raised _ _ _ rfl hp rfl hne
  case ram16kIndexWrite =>
    obtain ⟨hp, m, hk, hX, ⟨hw, ha, rfl⟩ | ⟨e, a, hne, rfl⟩⟩ := ramSetInput_next h
    · exact .wrote _ (.ram m) rfl hp hk (by simp [Instr.fits, hX]) (by simp [Instr.shapesOk, hw, ha]) rfl
    · exact .raised _ _ _ rfl hp rfl hne
  case ram16kGetOutput =>
    obtain ⟨hp, m, hk, hX, ⟨ha, rfl⟩ | ⟨e, a, hne, rfl⟩⟩ := ramGetOutput_next h
    · exact .read _ (.ram m) _ rfl hp hk (by simp [Instr.fits, hX]) rfl (by simp)
    · exact .raised _ _ _ rfl hp rfl hne
  case ram16kIndexRead =>
    obtain ⟨hp, m, hk, hX, ⟨ha, rfl⟩ | ⟨e, a, hne, rfl⟩⟩ := ramGetOutput_next h
    · exact .read _ (.ram m) _ rfl hp hk (by simp [Instr.fits, hX]) rfl (by simp)
    · exact .raised _ _ _ rfl hp rfl hne
  case ram16kRecompute =>
    obtain ⟨hp, m, hk, hX, rfl⟩ := ramRecompute_next h
    exact .wrote _ (.ram m) rfl hp hk (by simp [Instr.fits, hX]) rfl rfl
  case ram16kOnClock =>
    obtain ⟨hp, m, hk, hX, rfl⟩ := ramOnClock_next h
    exact .wrote _ (.ram m) rfl hp hk (by simp [Instr.fits, hX]) rfl rfl
  case clockSubscribe cs =>
    simp only [exec, execClockSubscribe] at h
    split at h
    · injection h with h
      subst h
      exact .subscribed cs _ rfl ‹_›
    · cases h
  case clockTick =>
    injection h with h
    subst h
    exact .ticked rfl
  case clockElapsedTicks =>
    injection h with h
    subst h
    exact .counted rfl

/-! ### What an operation makes of its component -/

/-- An ON_CLOCK clocks its component. -/
theorem act_onClock {i : Instr} {c : Ref} {level : Bit} {comp : Component} (hi : i.onClockOf = some (c, level))
    (hf : i.fits comp = true) : i.act comp = comp.onClock level := by
  cases i <;> simp only [Instr.onClockOf, Option.some.injEq, Prod.mk.injEq, reduceCtorEq] at hi <;>
    cases comp <;> simp_all [Instr.fits, Instr.act, Component.onClock]

/-- No operation changes the kind, width or level of a component (R3). -/
theorem act_kind {i : Instr} {comp : Component} (hf : i.fits comp = true) : (i.act comp).kind = comp.kind := by
  cases i <;> cases comp <;>
    simp_all [Instr.fits, Instr.act, Component.kind, Register.setInput_width, Ram.setInput, Ram.onClock]

/-- An operation that brings no edge leaves the committed value of its component (R72). -/
theorem act_visible {i : Instr} {comp : Component} (hf : i.fits comp = true) (hw : comp.wf = true)
    (hi : i.clocks = false) : (i.act comp).visible = comp.visible := by
  cases i <;> cases comp <;>
    simp_all [Instr.fits, Instr.act, Component.visible, Instr.clocks, Instr.onClockOf, Cell.setInput, Ram.setInput,
      Register.setInput_output, Component.wf, Pc.setInput, Pc.recompute, Pc.drive_output]

theorem onClock_wf {comp : Component} (hw : comp.wf = true) (level : Bit) : (comp.onClock level).wf = true := by
  cases comp with
  | cell c => rfl
  | bit b => simp [Component.onClock, Component.wf]
  | reg r =>
    simp only [Component.wf, Bool.and_eq_true, bne_iff_ne] at hw
    simp [Component.onClock, Component.wf, hw.1, Register.onClock_uniform hw.2]
  | ram m =>
    simp only [Component.wf, Bool.and_eq_true, beq_iff_eq] at hw
    obtain ⟨⟨ha, hm⟩, hin⟩ := hw
    have hlt : uint m.recAddress < 2 ^ m.level.addrWidth := ha ▸ uint_lt _
    simp only [Component.onClock, Component.wf, Ram.onClock, Bool.and_eq_true, beq_iff_eq]
    refine ⟨⟨ha, ?_⟩, ?_⟩
    · split
      · exact memWrite_wf _ _ hm
      · exact hm
    · split
      · exact memWrite_within _ hin hlt
      · exact hin
  | pc p =>
    simp only [Component.wf, Bool.and_eq_true, beq_iff_eq] at hw
    simp [Component.onClock, Component.wf, (p.drive_width hw.1.le).trans hw.1, Pc.onClock,
      Register.onClock_uniform (Pc.drive_uniform hw.2)]

/-- Every operation keeps the invariant of its component. -/
theorem act_wf {i : Instr} {comp : Component} (hf : i.fits comp = true) (hs : i.shapesOk = true)
    (hw : comp.wf = true) : (i.act comp).wf = true := by
  by_cases hc : ∃ x, i.onClockOf = some x
  · obtain ⟨⟨c, level⟩, hc⟩ := hc
    rw [act_onClock hc hf]
    exact onClock_wf hw level
  · cases i <;> first | exact absurd ⟨_, rfl⟩ hc | skip
    all_goals cases comp <;> first | exact hw | cases hf | skip
    all_goals
      simp_all [Instr.act, Component.wf, Instr.fits, Instr.shapesOk, Register.setInput_width, Register.setInput_uniform,
        Register.recompute_uniform, Ram.setInput, Pc.setInput, Pc.recompute, Pc.drive_width, Pc.drive_uniform]

end Sys2Proof.Machine
end

