-- ==== Sys2Proof/Laws/Clock.lean ====
section
/-! SUPPORT. One pass over the subscribers, and one TICK, component by component. -/

namespace Sys2Proof.Machine

open Sys2Proof

/-- Clocking a component n times with the same level. -/
def clockTimes (level : Bit) : Nat → Component → Component
  | 0, comp => comp
  | n + 1, comp => clockTimes level n (comp.onClock level)

@[simp] theorem notify_nil (level : Bit) (cs : List Component) : notify level [] cs = cs := rfl

@[simp] theorem notify_cons (level : Bit) (k : Nat) (ks : List Nat) (cs : List Component) :
    notify level (k :: ks) cs = notify level ks (cs.modify k fun comp => comp.onClock level) := rfl

@[simp] theorem notify_length (level : Bit) (ks : List Nat) (cs : List Component) :
    (notify level ks cs).length = cs.length := by
  induction ks generalizing cs with
  | nil => rfl
  | cons k ks ih => simp [ih]

/-- A pass clocks each component once for each of its subscriptions, and nothing else. -/
theorem notify_getElem? (level : Bit) (ks : List Nat) (cs : List Component) (k : Nat) :
    (notify level ks cs)[k]? = cs[k]?.map (clockTimes level (ks.count k)) := by
  induction ks generalizing cs with
  | nil => cases h : cs[k]? <;> simp [clockTimes, h]
  | cons j ks ih =>
    rw [notify_cons, ih, List.getElem?_modify]
    by_cases h : j = k
    · subst h
      cases cs[j]? <;> simp [clockTimes]
    · have : ¬ k = j := Ne.symm h
      cases cs[k]? <;> simp [h]

/-- The state after a TICK, component by component (R181). -/
theorem tick_getElem? (s : State) (k : Nat) :
    s.tick.components[k]? = s.components[k]?.map fun comp =>
      clockTimes false (s.clock.subscribers.count k) (clockTimes true (s.clock.subscribers.count k) comp) := by
  simp only [State.tick, notify_getElem?, Option.map_map]
  rfl

@[simp] theorem tick_length (s : State) : s.tick.components.length = s.components.length := by simp [State.tick]
@[simp] theorem tick_subscribers (s : State) : s.tick.clock.subscribers = s.clock.subscribers := rfl
@[simp] theorem tick_elapsedTicks (s : State) : s.tick.clock.elapsedTicks = s.clock.elapsedTicks + 1 := rfl
@[simp] theorem tick_calls (s : State) : s.tick.calls = s.calls := rfl

/-- Clocking again with the level a component has just seen. Only a Program Counter may differ, in the inputs its next drive
sets anew; every other component is unchanged (R104, R106). -/
theorem onClock_again (comp : Component) (level level' : Bit) :
    ((comp.onClock level).onClock level).onClock level' = (comp.onClock level).onClock level' := by
  cases comp with
  | cell c => cases level <;> simp [Component.onClock, Cell.onClock, rising]
  | bit b => simp [Component.onClock]
  | reg r => simp [Component.onClock]
  | ram m => simp [Component.onClock]
  | pc p =>
    simp only [Component.onClock, Component.pc.injEq]
    have := Pc.onClock_drive (p.onClock level) level (p.onClock_width_le level) (p.onClock_prev level)
    conv_lhs => rw [Pc.onClock, this]
    rfl

theorem clockTimes_onClock (level level' : Bit) (n : Nat) (comp : Component) :
    (clockTimes level (n + 1) comp).onClock level' = (comp.onClock level).onClock level' := by
  induction n generalizing comp with
  | zero => rfl
  | succ n ih => rw [clockTimes, ih, onClock_again]

/-- After a falling edge a second one changes nothing at all. -/
theorem fall_again (comp : Component) :
    ((comp.onClock true).onClock false).onClock false = (comp.onClock true).onClock false := by
  cases comp with
  | cell c => simp [Component.onClock, Cell.onClock, rising]
  | bit b => simp [Component.onClock]
  | reg r => simp [Component.onClock]
  | ram m => simp [Component.onClock]
  | pc p =>
    simp only [Component.onClock, Component.pc.injEq]
    generalize hq : p.onClock true = q
    have hw : q.reg.width ≤ 16 := hq ▸ p.onClock_width_le true
    have hp : ∀ b ∈ q.reg.bits, b.cell.prev = true := hq ▸ p.onClock_prev true
    have hd : (q.onClock false).drive = q.onClock false := by
      have hn : (q.onClock false).next = q.next := by
        rw [Pc.next, Pc.value, Pc.onClock_output_hold q false hw (.inl rfl)]
        rfl
      rw [Pc.drive, hn]
      simp only [Pc.onClock, Pc.drive, Register.onClock, Register.setInput, Pc.mk.injEq, Register.mk.injEq, true_and]
      generalize bitsOfWord q.next = vs
      generalize q.reg.bits = bs
      induction bs generalizing vs with
      | nil => simp
      | cons b bs ih =>
        cases vs with
        | nil => simp
        | cons v vs =>
          have : ((b.setInput v true).onClock false).setInput v true = (b.setInput v true).onClock false := by
            obtain ⟨rv, rl, ⟨pe, st, pr⟩⟩ := b
            cases pr <;> rfl
          rw [List.zipWith_cons_cons, List.map_cons, List.zipWith_cons_cons, this, ih]
    conv_lhs => rw [Pc.onClock, hd]
    simp [Pc.onClock]

theorem clockTimes_fall (n : Nat) (comp : Component) :
    clockTimes false n ((comp.onClock true).onClock false) = (comp.onClock true).onClock false := by
  induction n with
  | zero => rfl
  | succ n ih => rw [clockTimes, fall_again, ih]

/-- In one TICK several subscriptions of a component count as one (R184). -/
theorem clockTimes_tick (n : Nat) (comp : Component) :
    clockTimes false (n + 1) (clockTimes true (n + 1) comp) = (comp.onClock true).onClock false := by
  rw [clockTimes, clockTimes_onClock, clockTimes_fall]

/-- The state after a TICK: a subscribed component has had one rising and one falling edge, however often it is subscribed
(R181, R184). -/
theorem tick_component (s : State) (k : Nat) :
    s.tick.components[k]? = s.components[k]?.map fun comp =>
      if k ∈ s.clock.subscribers then (comp.onClock true).onClock false else comp := by
  rw [tick_getElem?]
  congr 1
  funext comp
  by_cases h : k ∈ s.clock.subscribers
  · obtain ⟨n, hn⟩ := Nat.exists_eq_succ_of_ne_zero (List.count_pos_iff.mpr h).ne'
    rw [if_pos h, hn, Nat.succ_eq_add_one, clockTimes_tick]
  · rw [if_neg h, List.count_eq_zero_of_not_mem h]
    rfl

/-- A property of components that clocking keeps holds of every component after a TICK. -/
theorem tick_forall {P : Component → Prop} (s : State) (hP : ∀ comp level, P comp → P (comp.onClock level))
    (h : ∀ comp ∈ s.components, P comp) : ∀ comp ∈ s.tick.components, P comp := by
  intro comp hc
  obtain ⟨k, hk⟩ := List.mem_iff_getElem?.mp hc
  rw [tick_component, Option.map_eq_some_iff] at hk
  obtain ⟨x, hx, rfl⟩ := hk
  have := h x (List.mem_of_getElem? hx)
  split
  · exact hP _ _ (hP _ _ this)
  · exact this

/-- Clocking keeps the kind of a component. -/
@[simp] theorem onClock_kind (comp : Component) (level : Bit) : (comp.onClock level).kind = comp.kind := by
  cases comp <;> simp [Component.onClock, Component.kind, Ram.onClock]

end Sys2Proof.Machine
end

