-- ==== Sys2Proof/Laws/Decode.lean ====
section
/-! SUPPORT. Reading a packed bundle gives back what was packed, and a bundle that is read is the packing of what is read. -/

namespace Sys2Proof

@[simp] theorem rawBits_map_toNat (bs : Bits) : rawBits (bs.map Bool.toNat) = some bs := by
  induction bs with
  | nil => rfl
  | cons b bs ih => cases b <;> simp [rawBits, ih]

/-- Raw values that are Bits are the raw values of those Bits. -/
theorem eq_of_rawBits {vs : List Nat} {bs : Bits} (h : rawBits vs = some bs) : vs = bs.map Bool.toNat := by
  induction vs generalizing bs with
  | nil => cases h; rfl
  | cons v vs ih =>
    unfold rawBits at h
    split at h
    · split at h
      · rename_i hv bs' hbs
        cases h
        rw [ih hbs]
        have : (v == 1).toNat = v := by
          rcases (by omega : v = 0 ∨ v = 1) with rfl | rfl <;> rfl
        simp [this]
      · cases h
    · cases h

theorem splitBundle_flatten (seqs : List Bits) (bits : Bits) :
    splitBundle (seqs.map List.length) (seqs.flatten ++ bits) = (seqs, bits) := by
  induction seqs with
  | nil => rfl
  | cons q seqs ih => simp [splitBundle, ih]

/-- The sequences read have the declared lengths, and with the Bits left over they make up the bundle. -/
theorem splitBundle_spec {ns : List Nat} {bs : Bits} (h : ns.sum ≤ bs.length) :
    (splitBundle ns bs).1.map List.length = ns ∧ (splitBundle ns bs).1.flatten ++ (splitBundle ns bs).2 = bs := by
  induction ns generalizing bs with
  | nil => simp [splitBundle]
  | cons n ns ih =>
    simp only [List.sum_cons] at h
    have := ih (bs := bs.drop n) (by simp; omega)
    refine ⟨?_, ?_⟩
    · simp only [splitBundle, List.map_cons, this.1, List.length_take]
      congr 1
      omega
    · simp [splitBundle, this.2]

/-- Reading a packed call gives back its operands. -/
theorem operands_packCall (f : Family) (op : OpName) (refs : List Ref) (seqs : List Bits) (bits : Bits) {n m : Nat}
    (hn : seqs.length = n) (hm : bits.length = m) : (packCall f op refs seqs bits).operands n m = .ok (seqs, bits) := by
  subst hn hm
  have : ((seqs.flatten ++ bits).map Bool.toNat).length = (seqs.map List.length).sum + bits.length := by
    rw [List.length_map, List.length_append, List.length_flatten]
  simp only [packCall, Call.operands, List.length_map, this, true_and, if_true, rawBits_map_toNat, splitBundle_flatten]

/-- A call whose operands are read is the packing of them. -/
theorem packed_of_operands {c : Call} {n m : Nat} {seqs : List Bits} {bits : Bits}
    (h : c.operands n m = .ok (seqs, bits)) :
    c.lens = seqs.map List.length ∧ c.bundle = (seqs.flatten ++ bits).map Bool.toNat ∧ seqs.length = n ∧
      bits.length = m := by
  unfold Call.operands at h
  split at h
  · rename_i hl
    split at h
    · rename_i bs hbs
      have hb := eq_of_rawBits hbs
      have hlen : bs.length = c.lens.sum + m := by rw [← hl.2, hb, List.length_map]
      have hs := splitBundle_spec (ns := c.lens) (bs := bs) (by omega)
      injection h with h
      rw [h] at hs
      simp only at hs
      refine ⟨hs.1.symm, by rw [hs.2, hb], by rw [← hl.1, ← hs.1, List.length_map], ?_⟩
      have hsum : seqs.flatten.length = c.lens.sum := by rw [← hs.1, List.length_flatten]
      have := congrArg List.length hs.2
      rw [List.length_append, hsum, hlen] at this
      omega
    · cases h
  · cases h

/-- A call of one component whose operands are read is a packed call. -/
theorem eq_packCall {c : Call} {r : Ref} {n m : Nat} {seqs : List Bits} {bits : Bits} (hr : c.ref = .ok r)
    (h : c.operands n m = .ok (seqs, bits)) : c = packCall c.family c.op [r] seqs bits := by
  obtain ⟨f, op, refs, lens, bundle⟩ := c
  obtain ⟨hl, hb, -, -⟩ := packed_of_operands h
  have : refs = [r] := by
    simp only [Call.ref] at hr
    split at hr
    · injection hr with hr
      rw [hr]
    · cases hr
  simp_all [packCall]

@[simp] theorem packCall_family (f : Family) (op : OpName) (refs : List Ref) (seqs : List Bits) (bits : Bits) :
    (packCall f op refs seqs bits).family = f := rfl
@[simp] theorem packCall_op (f : Family) (op : OpName) (refs : List Ref) (seqs : List Bits) (bits : Bits) :
    (packCall f op refs seqs bits).op = op := rfl
@[simp] theorem packCall_ref (f : Family) (op : OpName) (r : Ref) (seqs : List Bits) (bits : Bits) :
    (packCall f op [r] seqs bits).ref = .ok r := rfl

/-- A packed call omits its inputs exactly if it has none. -/
theorem packCall_omitted (f : Family) (op : OpName) (refs : List Ref) (seqs : List Bits) (bits : Bits) :
    (packCall f op refs seqs bits).omitted = true ↔ seqs = [] ∧ bits = [] := by
  cases seqs <;> simp [packCall, Call.omitted]

/-! ### One pair of lemmas per bundle shape -/

section readers

variable (f : Family) (op : OpName) (r : Ref)

@[simp] theorem packed_omitted_none : (packCall f op [r] [] []).omitted = true := rfl
@[simp] theorem packed_omitted_bits (refs : List Ref) (seqs : List Bits) (b : Bit) (bits : Bits) :
    (packCall f op refs seqs (b :: bits)).omitted = false := by
  rw [← Bool.not_eq_true, packCall_omitted]; simp

@[simp] theorem readNone_pack (mk : Ref → Instr) : readNone (packCall f op [r] [] []) mk = .ok (mk r) := rfl

@[simp] theorem readBit_pack (mk : Ref → Bit → Instr) (b : Bit) :
    readBit (packCall f op [r] [] [b]) mk = .ok (mk r b) := by
  rw [readBit, operands_packCall (n := 0) (m := 1) _ _ _ _ _ rfl rfl]; rfl

@[simp] theorem readValueLoad_pack (mk : Ref → Bit → Bit → Instr) (v l : Bit) :
    readValueLoad (packCall f op [r] [] [v, l]) mk = .ok (mk r v l) := by
  rw [readValueLoad, operands_packCall (n := 0) (m := 2) _ _ _ _ _ rfl rfl]; rfl

@[simp] theorem readBitsLoad_pack (mk : Ref → Bits → Bit → Instr) (w : Bits) (l : Bit) :
    readBitsLoad (packCall f op [r] [w] [l]) mk = .ok (mk r w l) := by
  rw [readBitsLoad, operands_packCall (n := 1) (m := 1) _ _ _ _ _ rfl rfl]; rfl

@[simp] theorem readWordAddressLoad_pack (mk : Ref → Bits → Bits → Bit → Instr) (w a : Bits) (l : Bit) :
    readWordAddressLoad (packCall f op [r] [w, a] [l]) mk = .ok (mk r w a l) := by
  rw [readWordAddressLoad, operands_packCall (n := 2) (m := 1) _ _ _ _ _ rfl rfl]; rfl

@[simp] theorem readAddress_pack (mk : Ref → Bits → Instr) (a : Bits) :
    readAddress (packCall f op [r] [a] []) mk = .ok (mk r a) := by
  rw [readAddress, operands_packCall (n := 1) (m := 0) _ _ _ _ _ rfl rfl]; rfl

@[simp] theorem readAddressWord_pack (mk : Ref → Bits → Bits → Instr) (w a : Bits) :
    readAddressWord (packCall f op [r] [w, a] []) mk = .ok (mk r a w) := by
  rw [readAddressWord, operands_packCall (n := 2) (m := 0) _ _ _ _ _ rfl rfl]; rfl

@[simp] theorem readPcInputs_pack (mk : Ref → Bits → Bit → Bit → Bit → Instr) (v : Bits) (i l rst : Bit) :
    readPcInputs (packCall f op [r] [v] [i, l, rst]) mk = .ok (mk r v l i rst) := by
  rw [readPcInputs, operands_packCall (n := 1) (m := 3) _ _ _ _ _ rfl rfl]; rfl

@[simp] theorem readClock_pack (i : Instr) : readClock (packCall f op [] [] []) i = .ok i := rfl

@[simp] theorem readSubscribe_pack (refs : List Ref) :
    readSubscribe (packCall f op refs [] []) = .ok (.clockSubscribe refs) := rfl

end readers

section read_inversions

variable {c : Call} {i : Instr}

theorem readNone_ok {mk : Ref → Instr} (h : readNone c mk = .ok i) :
    ∃ r, i = mk r ∧ c = packCall c.family c.op [r] [] [] := by
  unfold readNone at h
  split at h
  · rename_i r ops hr ho
    obtain ⟨seqs, bits⟩ := ops
    obtain ⟨-, -, hs, hb⟩ := packed_of_operands ho
    obtain rfl := List.length_eq_zero_iff.mp hs
    obtain rfl := List.length_eq_zero_iff.mp hb
    injection h with h
    exact ⟨r, h.symm, eq_packCall hr ho⟩
  · cases h
  · cases h

theorem readBit_ok {mk : Ref → Bit → Instr} (h : readBit c mk = .ok i) :
    ∃ r b, i = mk r b ∧ c = packCall c.family c.op [r] [] [b] := by
  unfold readBit at h
  split at h
  · rename_i hr ho
    obtain ⟨-, -, hs, -⟩ := packed_of_operands ho
    obtain rfl := List.length_eq_zero_iff.mp hs
    injection h with h
    exact ⟨_, _, h.symm, eq_packCall hr ho⟩
  all_goals cases h

theorem readValueLoad_ok {mk : Ref → Bit → Bit → Instr} (h : readValueLoad c mk = .ok i) :
    ∃ r v l, i = mk r v l ∧ c = packCall c.family c.op [r] [] [v, l] := by
  unfold readValueLoad at h
  split at h
  · rename_i hr ho
    obtain ⟨-, -, hs, -⟩ := packed_of_operands ho
    obtain rfl := List.length_eq_zero_iff.mp hs
    injection h with h
    exact ⟨_, _, _, h.symm, eq_packCall hr ho⟩
  all_goals cases h

theorem readBitsLoad_ok {mk : Ref → Bits → Bit → Instr} (h : readBitsLoad c mk = .ok i) :
    ∃ r w l, i = mk r w l ∧ c = packCall c.family c.op [r] [w] [l] := by
  unfold readBitsLoad at h
  split at h
  · rename_i hr ho
    injection h with h
    exact ⟨_, _, _, h.symm, eq_packCall hr ho⟩
  all_goals cases h

theorem readWordAddressLoad_ok {mk : Ref → Bits → Bits → Bit → Instr} (h : readWordAddressLoad c mk = .ok i) :
    ∃ r w a l, i = mk r w a l ∧ c = packCall c.family c.op [r] [w, a] [l] := by
  unfold readWordAddressLoad at h
  split at h
  · rename_i hr ho
    injection h with h
    exact ⟨_, _, _, _, h.symm, eq_packCall hr ho⟩
  all_goals cases h

theorem readAddress_ok {mk : Ref → Bits → Instr} (h : readAddress c mk = .ok i) :
    ∃ r a, i = mk r a ∧ c = packCall c.family c.op [r] [a] [] := by
  unfold readAddress at h
  split at h
  · rename_i hr ho
    injection h with h
    exact ⟨_, _, h.symm, eq_packCall hr ho⟩
  all_goals cases h

theorem readAddressWord_ok {mk : Ref → Bits → Bits → Instr} (h : readAddressWord c mk = .ok i) :
    ∃ r a w, i = mk r a w ∧ c = packCall c.family c.op [r] [w, a] [] := by
  unfold readAddressWord at h
  split at h
  · rename_i hr ho
    injection h with h
    exact ⟨_, _, _, h.symm, eq_packCall hr ho⟩
  all_goals cases h

theorem readPcInputs_ok {mk : Ref → Bits → Bit → Bit → Bit → Instr} (h : readPcInputs c mk = .ok i) :
    ∃ r v l inc rst, i = mk r v l inc rst ∧ c = packCall c.family c.op [r] [v] [inc, l, rst] := by
  unfold readPcInputs at h
  split at h
  · rename_i hr ho
    injection h with h
    exact ⟨_, _, _, _, _, h.symm, eq_packCall hr ho⟩
  all_goals cases h

theorem readClock_ok {j : Instr} (h : readClock c j = .ok i) : i = j ∧ c = packCall c.family c.op [] [] [] := by
  unfold readClock at h
  split at h
  · rename_i ops hr ho
    obtain ⟨seqs, bits⟩ := ops
    obtain ⟨hl, hb, hs, hbs⟩ := packed_of_operands ho
    obtain rfl := List.length_eq_zero_iff.mp hs
    obtain rfl := List.length_eq_zero_iff.mp hbs
    injection h with h
    refine ⟨h.symm, ?_⟩
    obtain ⟨f, op, refs, lens, bundle⟩ := c
    simp_all [packCall]
  all_goals cases h

theorem readSubscribe_ok (h : readSubscribe c = .ok i) :
    i = .clockSubscribe c.refs ∧ c = packCall c.family c.op c.refs [] [] := by
  unfold readSubscribe at h
  split at h
  · rename_i ops ho
    obtain ⟨seqs, bits⟩ := ops
    obtain ⟨hl, hb, hs, hbs⟩ := packed_of_operands ho
    obtain rfl := List.length_eq_zero_iff.mp hs
    obtain rfl := List.length_eq_zero_iff.mp hbs
    injection h with h
    refine ⟨h.symm, ?_⟩
    obtain ⟨f, op, refs, lens, bundle⟩ := c
    simp_all [packCall]
  · cases h

end read_inversions

end Sys2Proof
end

