-- ==== Sys2Proof/Laws/PerInstr.lean ====
section
/-! SUPPORT. A law stated of every operation as syntax, one lemma per constructor: the bundle its call packs has the width that
R90 and spec/opcode_table.json give its row, and holds Bits only (R14). -/

namespace Sys2Proof.Laws

/-- The width of the operand bundle of an operation (R90). -/
def bundleWidth (i : Instr) : Nat :=
  match i with
  | .cellSetInput _ _ => 1
  | .cellRecompute _ => 0
  | .cellGetOutput _ => 0
  | .cellOnClock _ _ => 1
  | .bitSetInput _ _ _ => 2
  | .bitRecompute _ => 0
  | .bitGetOutput _ => 0
  | .bitOnClock _ _ => 1
  | .regSetInput _ bits _ => bits.length + 1
  | .regRecompute _ => 0
  | .regGetOutput _ => 0
  | .regOnClock _ _ => 1
  | .ram8SetInput _ _ _ _ => 20
  | .ram8Recompute _ => 0
  | .ram8GetOutput _ _ => 3
  | .ram8OnClock _ _ => 1
  | .ram8IndexRead _ _ => 3
  | .ram8IndexWrite _ _ _ => 19
  | .ram64SetInput _ _ _ _ => 23
  | .ram64Recompute _ => 0
  | .ram64GetOutput _ _ => 6
  | .ram64OnClock _ _ => 1
  | .ram64IndexRead _ _ => 6
  | .ram64IndexWrite _ _ _ => 22
  | .ram512SetInput _ _ _ _ => 26
  | .ram512Recompute _ => 0
  | .ram512GetOutput _ _ => 9
  | .ram512OnClock _ _ => 1
  | .ram512IndexRead _ _ => 9
  | .ram512IndexWrite _ _ _ => 25
  | .ram4kSetInput _ _ _ _ => 29
  | .ram4kRecompute _ => 0
  | .ram4kGetOutput _ _ => 12
  | .ram4kOnClock _ _ => 1
  | .ram4kIndexRead _ _ => 12
  | .ram4kIndexWrite _ _ _ => 28
  | .ram16kSetInput _ _ _ _ => 31
  | .ram16kRecompute _ => 0
  | .ram16kGetOutput _ _ => 14
  | .ram16kOnClock _ _ => 1
  | .ram16kIndexRead _ _ => 14
  | .ram16kIndexWrite _ _ _ => 30
  | .pcSetInput _ _ _ _ _ => 19
  | .pcRecompute _ => 0
  | .pcGetOutput _ => 0
  | .pcOnClock _ _ => 1
  | .clockSubscribe _ => 0
  | .clockTick => 0
  | .clockElapsedTicks => 0

/-- The bundle of a well-formed operation has the declared width and holds Bits only. -/
def Encoding.Statement (i : Instr) : Prop :=
  i.wellFormed = true → (encode i).bundle.length = bundleWidth i ∧ ∀ v ∈ (encode i).bundle, v < 2

/-- A packed bundle holds Bits only. -/
theorem packCall_bits (f : Family) (op : OpName) (refs : List Ref) (seqs : List Bits) (bits : Bits) :
    ∀ v ∈ (packCall f op refs seqs bits).bundle, v < 2 := by
  intro v hv
  obtain ⟨b, -, rfl⟩ := List.mem_map.mp hv
  cases b <;> decide

/-- The width of a packed bundle. -/
theorem packCall_length (f : Family) (op : OpName) (refs : List Ref) (seqs : List Bits) (bits : Bits) :
    (packCall f op refs seqs bits).bundle.length = (seqs.map List.length).sum + bits.length := by
  simp only [packCall, List.length_map, List.length_append, List.length_flatten]

theorem Encoding.cellSetInput : ∀ c d, Encoding.Statement (.cellSetInput c d) := by
  intro c d _
  exact ⟨by simp [encode, packCall_length, bundleWidth], packCall_bits _ _ _ _ _⟩

theorem Encoding.cellRecompute : ∀ c, Encoding.Statement (.cellRecompute c) := by
  intro c _
  exact ⟨by simp [encode, packCall_length, bundleWidth], packCall_bits _ _ _ _ _⟩

theorem Encoding.cellGetOutput : ∀ c, Encoding.Statement (.cellGetOutput c) := by
  intro c _
  exact ⟨by simp [encode, packCall_length, bundleWidth], packCall_bits _ _ _ _ _⟩

theorem Encoding.cellOnClock : ∀ c level, Encoding.Statement (.cellOnClock c level) := by
  intro c level _
  exact ⟨by simp [encode, packCall_length, bundleWidth], packCall_bits _ _ _ _ _⟩

theorem Encoding.bitSetInput : ∀ c value load, Encoding.Statement (.bitSetInput c value load) := by
  intro c value load _
  exact ⟨by simp [encode, packCall_length, bundleWidth], packCall_bits _ _ _ _ _⟩

theorem Encoding.bitRecompute : ∀ c, Encoding.Statement (.bitRecompute c) := by
  intro c _
  exact ⟨by simp [encode, packCall_length, bundleWidth], packCall_bits _ _ _ _ _⟩

theorem Encoding.bitGetOutput : ∀ c, Encoding.Statement (.bitGetOutput c) := by
  intro c _
  exact ⟨by simp [encode, packCall_length, bundleWidth], packCall_bits _ _ _ _ _⟩

theorem Encoding.bitOnClock : ∀ c level, Encoding.Statement (.bitOnClock c level) := by
  intro c level _
  exact ⟨by simp [encode, packCall_length, bundleWidth], packCall_bits _ _ _ _ _⟩

theorem Encoding.regSetInput : ∀ c bits load, Encoding.Statement (.regSetInput c bits load) := by
  intro c bits load _
  exact ⟨by simp [encode, packCall_length, bundleWidth], packCall_bits _ _ _ _ _⟩

theorem Encoding.regRecompute : ∀ c, Encoding.Statement (.regRecompute c) := by
  intro c _
  exact ⟨by simp [encode, packCall_length, bundleWidth], packCall_bits _ _ _ _ _⟩

theorem Encoding.regGetOutput : ∀ c, Encoding.Statement (.regGetOutput c) := by
  intro c _
  exact ⟨by simp [encode, packCall_length, bundleWidth], packCall_bits _ _ _ _ _⟩

theorem Encoding.regOnClock : ∀ c level, Encoding.Statement (.regOnClock c level) := by
  intro c level _
  exact ⟨by simp [encode, packCall_length, bundleWidth], packCall_bits _ _ _ _ _⟩

theorem Encoding.ram8SetInput : ∀ c word address load, Encoding.Statement (.ram8SetInput c word address load) := by
  intro c word address load h
  simp only [Instr.wellFormed, Instr.shapesOk, Level.addrWidth, Bool.and_eq_true, beq_iff_eq] at h
  exact ⟨by simp [encode, packCall_length, bundleWidth, h], packCall_bits _ _ _ _ _⟩

theorem Encoding.ram8Recompute : ∀ c, Encoding.Statement (.ram8Recompute c) := by
  intro c _
  exact ⟨by simp [encode, packCall_length, bundleWidth], packCall_bits _ _ _ _ _⟩

theorem Encoding.ram8GetOutput : ∀ c address, Encoding.Statement (.ram8GetOutput c address) := by
  intro c address h
  simp only [Instr.wellFormed, Instr.shapesOk, Level.addrWidth, Bool.and_eq_true, beq_iff_eq] at h
  exact ⟨by simp [encode, packCall_length, bundleWidth, h], packCall_bits _ _ _ _ _⟩

theorem Encoding.ram8OnClock : ∀ c level, Encoding.Statement (.ram8OnClock c level) := by
  intro c level _
  exact ⟨by simp [encode, packCall_length, bundleWidth], packCall_bits _ _ _ _ _⟩

theorem Encoding.ram8IndexRead : ∀ c address, Encoding.Statement (.ram8IndexRead c address) := by
  intro c address h
  simp only [Instr.wellFormed, Instr.shapesOk, Level.addrWidth, Bool.and_eq_true, beq_iff_eq] at h
  exact ⟨by simp [encode, packCall_length, bundleWidth, h], packCall_bits _ _ _ _ _⟩

theorem Encoding.ram8IndexWrite : ∀ c address word, Encoding.Statement (.ram8IndexWrite c address word) := by
  intro c address word h
  simp only [Instr.wellFormed, Instr.shapesOk, Level.addrWidth, Bool.and_eq_true, beq_iff_eq] at h
  exact ⟨by simp [encode, packCall_length, bundleWidth, h], packCall_bits _ _ _ _ _⟩

theorem Encoding.ram64SetInput : ∀ c word address load, Encoding.Statement (.ram64SetInput c word address load) := by
  intro c word address load h
  simp only [Instr.wellFormed, Instr.shapesOk, Level.addrWidth, Bool.and_eq_true, beq_iff_eq] at h
  exact ⟨by simp [encode, packCall_length, bundleWidth, h], packCall_bits _ _ _ _ _⟩

theorem Encoding.ram64Recompute : ∀ c, Encoding.Statement (.ram64Recompute c) := by
  intro c _
  exact ⟨by simp [encode, packCall_length, bundleWidth], packCall_bits _ _ _ _ _⟩

theorem Encoding.ram64GetOutput : ∀ c address, Encoding.Statement (.ram64GetOutput c address) := by
  intro c address h
  simp only [Instr.wellFormed, Instr.shapesOk, Level.addrWidth, Bool.and_eq_true, beq_iff_eq] at h
  exact ⟨by simp [encode, packCall_length, bundleWidth, h], packCall_bits _ _ _ _ _⟩

theorem Encoding.ram64OnClock : ∀ c level, Encoding.Statement (.ram64OnClock c level) := by
  intro c level _
  exact ⟨by simp [encode, packCall_length, bundleWidth], packCall_bits _ _ _ _ _⟩

theorem Encoding.ram64IndexRead : ∀ c address, Encoding.Statement (.ram64IndexRead c address) := by
  intro c address h
  simp only [Instr.wellFormed, Instr.shapesOk, Level.addrWidth, Bool.and_eq_true, beq_iff_eq] at h
  exact ⟨by simp [encode, packCall_length, bundleWidth, h], packCall_bits _ _ _ _ _⟩

theorem Encoding.ram64IndexWrite : ∀ c address word, Encoding.Statement (.ram64IndexWrite c address word) := by
  intro c address word h
  simp only [Instr.wellFormed, Instr.shapesOk, Level.addrWidth, Bool.and_eq_true, beq_iff_eq] at h
  exact ⟨by simp [encode, packCall_length, bundleWidth, h], packCall_bits _ _ _ _ _⟩

theorem Encoding.ram512SetInput : ∀ c word address load, Encoding.Statement (.ram512SetInput c word address load) := by
  intro c word address load h
  simp only [Instr.wellFormed, Instr.shapesOk, Level.addrWidth, Bool.and_eq_true, beq_iff_eq] at h
  exact ⟨by simp [encode, packCall_length, bundleWidth, h], packCall_bits _ _ _ _ _⟩

theorem Encoding.ram512Recompute : ∀ c, Encoding.Statement (.ram512Recompute c) := by
  intro c _
  exact ⟨by simp [encode, packCall_length, bundleWidth], packCall_bits _ _ _ _ _⟩

theorem Encoding.ram512GetOutput : ∀ c address, Encoding.Statement (.ram512GetOutput c address) := by
  intro c address h
  simp only [Instr.wellFormed, Instr.shapesOk, Level.addrWidth, Bool.and_eq_true, beq_iff_eq] at h
  exact ⟨by simp [encode, packCall_length, bundleWidth, h], packCall_bits _ _ _ _ _⟩

theorem Encoding.ram512OnClock : ∀ c level, Encoding.Statement (.ram512OnClock c level) := by
  intro c level _
  exact ⟨by simp [encode, packCall_length, bundleWidth], packCall_bits _ _ _ _ _⟩

theorem Encoding.ram512IndexRead : ∀ c address, Encoding.Statement (.ram512IndexRead c address) := by
  intro c address h
  simp only [Instr.wellFormed, Instr.shapesOk, Level.addrWidth, Bool.and_eq_true, beq_iff_eq] at h
  exact ⟨by simp [encode, packCall_length, bundleWidth, h], packCall_bits _ _ _ _ _⟩

theorem Encoding.ram512IndexWrite : ∀ c address word, Encoding.Statement (.ram512IndexWrite c address word) := by
  intro c address word h
  simp only [Instr.wellFormed, Instr.shapesOk, Level.addrWidth, Bool.and_eq_true, beq_iff_eq] at h
  exact ⟨by simp [encode, packCall_length, bundleWidth, h], packCall_bits _ _ _ _ _⟩

theorem Encoding.ram4kSetInput : ∀ c word address load, Encoding.Statement (.ram4kSetInput c word address load) := by
  intro c word address load h
  simp only [Instr.wellFormed, Instr.shapesOk, Level.addrWidth, Bool.and_eq_true, beq_iff_eq] at h
  exact ⟨by simp [encode, packCall_length, bundleWidth, h], packCall_bits _ _ _ _ _⟩

theorem Encoding.ram4kRecompute : ∀ c, Encoding.Statement (.ram4kRecompute c) := by
  intro c _
  exact ⟨by simp [encode, packCall_length, bundleWidth], packCall_bits _ _ _ _ _⟩

theorem Encoding.ram4kGetOutput : ∀ c address, Encoding.Statement (.ram4kGetOutput c address) := by
  intro c address h
  simp only [Instr.wellFormed, Instr.shapesOk, Level.addrWidth, Bool.and_eq_true, beq_iff_eq] at h
  exact ⟨by simp [encode, packCall_length, bundleWidth, h], packCall_bits _ _ _ _ _⟩

theorem Encoding.ram4kOnClock : ∀ c level, Encoding.Statement (.ram4kOnClock c level) := by
  intro c level _
  exact ⟨by simp [encode, packCall_length, bundleWidth], packCall_bits _ _ _ _ _⟩

theorem Encoding.ram4kIndexRead : ∀ c address, Encoding.Statement (.ram4kIndexRead c address) := by
  intro c address h
  simp only [Instr.wellFormed, Instr.shapesOk, Level.addrWidth, Bool.and_eq_true, beq_iff_eq] at h
  exact ⟨by simp [encode, packCall_length, bundleWidth, h], packCall_bits _ _ _ _ _⟩

theorem Encoding.ram4kIndexWrite : ∀ c address word, Encoding.Statement (.ram4kIndexWrite c address word) := by
  intro c address word h
  simp only [Instr.wellFormed, Instr.shapesOk, Level.addrWidth, Bool.and_eq_true, beq_iff_eq] at h
  exact ⟨by simp [encode, packCall_length, bundleWidth, h], packCall_bits _ _ _ _ _⟩

theorem Encoding.ram16kSetInput : ∀ c word address load, Encoding.Statement (.ram16kSetInput c word address load) := by
  intro c word address load h
  simp only [Instr.wellFormed, Instr.shapesOk, Level.addrWidth, Bool.and_eq_true, beq_iff_eq] at h
  exact ⟨by simp [encode, packCall_length, bundleWidth, h], packCall_bits _ _ _ _ _⟩

theorem Encoding.ram16kRecompute : ∀ c, Encoding.Statement (.ram16kRecompute c) := by
  intro c _
  exact ⟨by simp [encode, packCall_length, bundleWidth], packCall_bits _ _ _ _ _⟩

theorem Encoding.ram16kGetOutput : ∀ c address, Encoding.Statement (.ram16kGetOutput c address) := by
  intro c address h
  simp only [Instr.wellFormed, Instr.shapesOk, Level.addrWidth, Bool.and_eq_true, beq_iff_eq] at h
  exact ⟨by simp [encode, packCall_length, bundleWidth, h], packCall_bits _ _ _ _ _⟩

theorem Encoding.ram16kOnClock : ∀ c level, Encoding.Statement (.ram16kOnClock c level) := by
  intro c level _
  exact ⟨by simp [encode, packCall_length, bundleWidth], packCall_bits _ _ _ _ _⟩

theorem Encoding.ram16kIndexRead : ∀ c address, Encoding.Statement (.ram16kIndexRead c address) := by
  intro c address h
  simp only [Instr.wellFormed, Instr.shapesOk, Level.addrWidth, Bool.and_eq_true, beq_iff_eq] at h
  exact ⟨by simp [encode, packCall_length, bundleWidth, h], packCall_bits _ _ _ _ _⟩

theorem Encoding.ram16kIndexWrite : ∀ c address word, Encoding.Statement (.ram16kIndexWrite c address word) := by
  intro c address word h
  simp only [Instr.wellFormed, Instr.shapesOk, Level.addrWidth, Bool.and_eq_true, beq_iff_eq] at h
  exact ⟨by simp [encode, packCall_length, bundleWidth, h], packCall_bits _ _ _ _ _⟩

theorem Encoding.pcSetInput : ∀ c inputValue load increment reset, Encoding.Statement (.pcSetInput c inputValue load increment reset) := by
  intro c inputValue load increment reset h
  simp only [Instr.wellFormed, Instr.shapesOk, Bool.and_eq_true, beq_iff_eq] at h
  exact ⟨by simp [encode, packCall_length, bundleWidth, h], packCall_bits _ _ _ _ _⟩

theorem Encoding.pcRecompute : ∀ c, Encoding.Statement (.pcRecompute c) := by
  intro c _
  exact ⟨by simp [encode, packCall_length, bundleWidth], packCall_bits _ _ _ _ _⟩

theorem Encoding.pcGetOutput : ∀ c, Encoding.Statement (.pcGetOutput c) := by
  intro c _
  exact ⟨by simp [encode, packCall_length, bundleWidth], packCall_bits _ _ _ _ _⟩

theorem Encoding.pcOnClock : ∀ c level, Encoding.Statement (.pcOnClock c level) := by
  intro c level _
  exact ⟨by simp [encode, packCall_length, bundleWidth], packCall_bits _ _ _ _ _⟩

theorem Encoding.clockSubscribe : ∀ components, Encoding.Statement (.clockSubscribe components) := by
  intro components _
  exact ⟨by simp [encode, packCall_length, bundleWidth], packCall_bits _ _ _ _ _⟩

theorem Encoding.clockTick : Encoding.Statement (.clockTick) := by
  intro _
  exact ⟨by simp [encode, packCall_length, bundleWidth], packCall_bits _ _ _ _ _⟩

theorem Encoding.clockElapsedTicks : Encoding.Statement (.clockElapsedTicks) := by
  intro _
  exact ⟨by simp [encode, packCall_length, bundleWidth], packCall_bits _ _ _ _ _⟩

end Sys2Proof.Laws
end

