-- ==== Sys2Proof/Tests/Slice0.lean ====
section
/-! SUPPORT. Tests and witnesses. Expected results are those of spec/95_test_vectors.md (the vector is named), of the examples in
the rules, or worked by hand from a rule. A `witness_` theorem shows values that meet all hypotheses of the obligation it is
named after; where the statement has several clauses, it meets those of each. -/

open Sys2Proof Sys2Proof.Machine

namespace Sys2Proof.Tests

/-! ### Helpers -/

/-- The raw values of a bundle of `width` bits written as one number, as 95_test_vectors.md writes them. -/
def bundle (width k : Nat) : List Nat := (natBits width k).map Bool.toNat

/-- The instance that holds one component, subscribed once. -/
def one (comp : Component) : State :=
  { components := [comp], clock := ⟨0, [0]⟩, calls := [], reply := .done }

/-- The name of that component. -/
def it : Ref := .ofTop 0

/-- What the components are after one operation; `none` if it does not complete. -/
def after (i : Instr) (s : State) : Option (List Component) :=
  match exec i s with
  | .next t => some t.components
  | _ => none

/-- What one operation returns; `none` if it does not complete. -/
def returns (i : Instr) (s : State) : Option Reply :=
  match exec i s with
  | .next t => some t.reply
  | _ => none

/-- Why one operation is refused; `none` if it is not. -/
def refusedFor (i : Instr) (s : State) : Option Refusal :=
  match exec i s with
  | .refused r => some r
  | _ => none

/-- A Register that holds `w`, with recorded inputs `rw`, `load` and clock level `prev`. -/
def regOf (w rw : Word) (load prev : Bit) : Register :=
  { bits := List.zipWith (fun st v => ⟨v, load, ⟨mux load st v, st, prev⟩⟩) (bitsOfWord w) (bitsOfWord rw) }

/-- A Program Counter at `w`, never driven. -/
def pcAt (w : Word) : Pc :=
  { recInputValue := 0, recLoad := false, recIncrement := false, recReset := false, reg := regOf w w false false }

/-- A RAM level with these words and recorded inputs. -/
def ramOf (X : Level) (mem : Memory) (w : Word) (a : Nat) (load prev : Bit) : Ram :=
  { level := X, recWord := w, recAddress := natBits X.addrWidth a, recLoad := load, mem := mem, prev := prev }

/-! ### Well-formedness: each check refuses an ill-formed operation -/

theorem test_wf_owned_component : (Instr.cellOnClock ⟨1, [0]⟩ true).wellFormed = false := by decide
theorem test_wf_owned_subscriber : (Instr.clockSubscribe [.ofTop 8, ⟨8, [0]⟩]).wellFormed = false := by decide
theorem test_wf_word_length :
    (Instr.ram8SetInput (.ofTop 3) (natBits 15 0) (natBits 3 0) true).wellFormed = false := by decide
theorem test_wf_address_length :
    (Instr.ram16kSetInput (.ofTop 7) (natBits 16 0) (natBits 15 0) true).wellFormed = false := by decide
theorem test_wf_read_address_length : (Instr.ram64GetOutput (.ofTop 4) (natBits 5 0)).wellFormed = false := by decide
theorem test_wf_index_write_lengths :
    (Instr.ram512IndexWrite (.ofTop 5) (natBits 9 0) (natBits 17 0)).wellFormed = false ∧
      (Instr.ram4kIndexWrite (.ofTop 6) (natBits 9 0) (natBits 16 0)).wellFormed = false := by decide
theorem test_wf_pc_value_length :
    (Instr.pcSetInput (.ofTop 8) (natBits 17 0) false true false).wellFormed = false := by decide
theorem test_wf_accepts :
    (Instr.ram64SetInput (.ofTop 4) (natBits 16 0x1234) (natBits 6 5) true).wellFormed = true ∧
      (Instr.clockSubscribe []).wellFormed = true := by decide

/-! ### Decoding: every row of the opcode table, its bundle written from the layout of R90 -/

theorem test_decode_cell :
    decode ⟨.cell, .setInput, [it], [], [1]⟩ = .ok (.cellSetInput it true) ∧
    decode ⟨.cell, .setInput, [it], [], []⟩ = .ok (.cellRecompute it) ∧
    decode ⟨.cell, .getOutput, [it], [], []⟩ = .ok (.cellGetOutput it) ∧
    decode ⟨.cell, .onClock, [it], [], [1]⟩ = .ok (.cellOnClock it true) := by decide

/-- VB1, VB4: value is bit 0, load is bit 1. -/
theorem test_decode_bit :
    decode ⟨.bit, .setInput, [it], [], [1, 1]⟩ = .ok (.bitSetInput it true true) ∧
    decode ⟨.bit, .setInput, [it], [], [0, 1]⟩ = .ok (.bitSetInput it false true) ∧
    decode ⟨.bit, .setInput, [it], [], []⟩ = .ok (.bitRecompute it) ∧
    decode ⟨.bit, .getOutput, [it], [], []⟩ = .ok (.bitGetOutput it) ∧
    decode ⟨.bit, .onClock, [it], [], [0]⟩ = .ok (.bitOnClock it false) := by decide

/-- VR1, and VR8 for N = 3: bundle 0xD of 4 bits is load 1 and bits 0b101. -/
theorem test_decode_reg :
    decode ⟨.reg, .setInput, [it], [16], bundle 17 0x1BEEF⟩ = .ok (.regSetInput it (natBits 16 0xBEEF) true) ∧
    decode ⟨.reg, .setInput, [it], [3], [1, 0, 1, 1]⟩ = .ok (.regSetInput it [true, false, true] true) ∧
    decode ⟨.reg, .setInput, [it], [], []⟩ = .ok (.regRecompute it) ∧
    decode ⟨.reg, .getOutput, [it], [], []⟩ = .ok (.regGetOutput it) ∧
    decode ⟨.reg, .onClock, [it], [], [1]⟩ = .ok (.regOnClock it true) := by decide

/-- P3 (SET_INPUT [20: 0x00000], INDEX_WRITE [19: 0x30103]). -/
theorem test_decode_ram8 :
    decode ⟨.ram .ram8, .setInput, [it], [16, 3], bundle 20 0x00000⟩ =
      .ok (.ram8SetInput it (natBits 16 0) (natBits 3 0) false) ∧
    decode ⟨.ram .ram8, .setInput, [it], [], []⟩ = .ok (.ram8Recompute it) ∧
    decode ⟨.ram .ram8, .getOutput, [it], [3], [0, 1, 1]⟩ = .ok (.ram8GetOutput it (natBits 3 6)) ∧
    decode ⟨.ram .ram8, .onClock, [it], [], [1]⟩ = .ok (.ram8OnClock it true) ∧
    decode ⟨.ram .ram8, .indexRead, [it], [3], [1, 1, 1]⟩ = .ok (.ram8IndexRead it (natBits 3 7)) ∧
    decode ⟨.ram .ram8, .indexWrite, [it], [16, 3], bundle 19 0x30103⟩ =
      .ok (.ram8IndexWrite it (natBits 3 3) (natBits 16 0x0103)) := by decide

/-- The example of R90, `1 000101 0001001000110100`, and P2. -/
theorem test_decode_ram64 :
    decode ⟨.ram .ram64, .setInput, [it], [16, 6],
      [0, 0, 1, 0, 1, 1, 0, 0, 0, 1, 0, 0, 1, 0, 0, 0, 1, 0, 1, 0, 0, 0, 1]⟩ =
      .ok (.ram64SetInput it (natBits 16 0x1234) (natBits 6 5) true) ∧
    decode ⟨.ram .ram64, .setInput, [it], [], []⟩ = .ok (.ram64Recompute it) ∧
    decode ⟨.ram .ram64, .getOutput, [it], [6], bundle 6 0x3F⟩ = .ok (.ram64GetOutput it (natBits 6 63)) ∧
    decode ⟨.ram .ram64, .onClock, [it], [], [1]⟩ = .ok (.ram64OnClock it true) ∧
    decode ⟨.ram .ram64, .indexRead, [it], [6], bundle 6 0x20⟩ = .ok (.ram64IndexRead it (natBits 6 32)) ∧
    decode ⟨.ram .ram64, .indexWrite, [it], [16, 6], bundle 22 0x206666⟩ =
      .ok (.ram64IndexWrite it (natBits 6 32) (natBits 16 0x6666)) := by decide

/-- `1 100000001 1010010110100101`: load 1, address 257, word 0xA5A5. -/
theorem test_decode_ram512 :
    decode ⟨.ram .ram512, .setInput, [it], [16, 9], bundle 26 0b11000000011010010110100101⟩ =
      .ok (.ram512SetInput it (natBits 16 0xA5A5) (natBits 9 257) true) ∧
    decode ⟨.ram .ram512, .setInput, [it], [], []⟩ = .ok (.ram512Recompute it) ∧
    decode ⟨.ram .ram512, .getOutput, [it], [9], bundle 9 0x1FF⟩ = .ok (.ram512GetOutput it (natBits 9 511)) ∧
    decode ⟨.ram .ram512, .onClock, [it], [], [0]⟩ = .ok (.ram512OnClock it false) ∧
    decode ⟨.ram .ram512, .indexRead, [it], [9], bundle 9 0x100⟩ = .ok (.ram512IndexRead it (natBits 9 256)) ∧
    decode ⟨.ram .ram512, .indexWrite, [it], [16, 9], bundle 25 0b1000000010101101001011010⟩ =
      .ok (.ram512IndexWrite it (natBits 9 257) (natBits 16 0x5A5A)) := by decide

/-- `1 100000000001 0001001000110100`: load 1, address 2049, word 0x1234. -/
theorem test_decode_ram4k :
    decode ⟨.ram .ram4k, .setInput, [it], [16, 12], bundle 29 0b11000000000010001001000110100⟩ =
      .ok (.ram4kSetInput it (natBits 16 0x1234) (natBits 12 2049) true) ∧
    decode ⟨.ram .ram4k, .setInput, [it], [], []⟩ = .ok (.ram4kRecompute it) ∧
    decode ⟨.ram .ram4k, .getOutput, [it], [12], bundle 12 0xFFF⟩ = .ok (.ram4kGetOutput it (natBits 12 4095)) ∧
    decode ⟨.ram .ram4k, .onClock, [it], [], [1]⟩ = .ok (.ram4kOnClock it true) ∧
    decode ⟨.ram .ram4k, .indexRead, [it], [12], bundle 12 0x800⟩ = .ok (.ram4kIndexRead it (natBits 12 2048)) ∧
    decode ⟨.ram .ram4k, .indexWrite, [it], [16, 12], bundle 28 0x801FFFF⟩ =
      .ok (.ram4kIndexWrite it (natBits 12 2049) (natBits 16 0xFFFF)) := by decide

/-- VM10 and P5. -/
theorem test_decode_ram16k :
    decode ⟨.ram .ram16k, .setInput, [it], [16, 14], bundle 31 0x6710CAFE⟩ =
      .ok (.ram16kSetInput it (natBits 16 0xCAFE) (natBits 14 10000) true) ∧
    decode ⟨.ram .ram16k, .setInput, [it], [], []⟩ = .ok (.ram16kRecompute it) ∧
    decode ⟨.ram .ram16k, .getOutput, [it], [14], bundle 14 0x2710⟩ = .ok (.ram16kGetOutput it (natBits 14 10000)) ∧
    decode ⟨.ram .ram16k, .onClock, [it], [], [1]⟩ = .ok (.ram16kOnClock it true) ∧
    decode ⟨.ram .ram16k, .indexRead, [it], [14], bundle 14 0x3FFF⟩ = .ok (.ram16kIndexRead it (natBits 14 16383)) ∧
    decode ⟨.ram .ram16k, .indexWrite, [it], [16, 14], bundle 30 0x3FFF8001⟩ =
      .ok (.ram16kIndexWrite it (natBits 14 16383) (natBits 16 0x8001)) := by decide

/-- VP2 (increment), VP3 (load), VP5 (reset): each control on its own bit. -/
theorem test_decode_pc :
    decode ⟨.pc, .setInput, [it], [16], bundle 19 0x15678⟩ = .ok (.pcSetInput it (natBits 16 0x5678) false true false) ∧
    decode ⟨.pc, .setInput, [it], [16], bundle 19 0x25678⟩ = .ok (.pcSetInput it (natBits 16 0x5678) true false false) ∧
    decode ⟨.pc, .setInput, [it], [16], bundle 19 0x45678⟩ = .ok (.pcSetInput it (natBits 16 0x5678) false false true) ∧
    decode ⟨.pc, .setInput, [it], [], []⟩ = .ok (.pcRecompute it) ∧
    decode ⟨.pc, .getOutput, [it], [], []⟩ = .ok (.pcGetOutput it) ∧
    decode ⟨.pc, .onClock, [it], [], [0]⟩ = .ok (.pcOnClock it false) := by decide

theorem test_decode_clock :
    decode ⟨.clock, .subscribe, [.ofTop 8, .ofTop 3], [], []⟩ = .ok (.clockSubscribe [.ofTop 8, .ofTop 3]) ∧
    decode ⟨.clock, .tick, [], [], []⟩ = .ok .clockTick ∧
    decode ⟨.clock, .elapsedTicks, [], [], []⟩ = .ok .clockElapsedTicks := by decide

/-- R206: a partial SET_INPUT (D5), a value that is no Bit (D21), an operation the family has not (R81), no component. -/
theorem test_decode_refusals :
    decode ⟨.bit, .setInput, [it], [], [1]⟩ = .error .partialOperands ∧
    decode ⟨.cell, .setInput, [it], [], [2]⟩ = .error .notABit ∧
    decode ⟨.pc, .indexRead, [it], [16], bundle 16 0⟩ = .error .unknownOperation ∧
    decode ⟨.cell, .getOutput, [], [], []⟩ = .error .componentCount := by decide

/-- Log 3: a table word carries its row (counted from 1), its component and its bundle; row 0 selects nothing. -/
theorem test_table_words :
    decodeTableWord 40 (0x451234 * 2 ^ 16 + 4 * 2 ^ 8 + 19) =
      some (.ram64SetInput (.ofTop 4) (natBits 16 0x1234) (natBits 6 5) true) ∧
    decodeTableWord 16 48 = some .clockTick ∧ decodeTableWord 16 0 = none := by decide

/-- R181, log 3: the step after `withFetchWord` performs exactly that operation. -/
theorem test_withFetchWord : step (State.reset.withFetchWord 16 48) = .next (State.reset.tick.answer .done) := by rfl

/-! ### Conversions, primitives, address split -/

theorem test_conversions :
    intBits 16 65535 = some (List.replicate 16 true) ∧ intBits 16 (-1) = some (List.replicate 16 true) ∧
    intBits 16 (-32768) = some (natBits 16 0x8000) ∧ intBits 16 65536 = none ∧ intBits 16 (-32769) = none ∧
    sint (natBits 16 0x8000) = -32768 ∧ uint (natBits 16 0xBEEF) = 0xBEEF := by decide

theorem test_extensions :
    zext 4 [true, true] = [true, true, false, false] ∧ sext 4 [false, true] = [false, true, true, true] := by decide

/-- The example of R84: RAM-16K address 10000 names RAM-4K 2, RAM-512 3, RAM-64 4, RAM-8 2, Register 0. -/
theorem test_address_10000 :
    uint (addrSel 12 (natBits 14 10000)) = 2 ∧ uint (addrSel 9 (addrSub 12 (natBits 14 10000))) = 3 ∧
    uint (addrSel 6 (addrSub 9 (natBits 14 10000))) = 4 ∧ uint (addrSel 3 (addrSub 6 (natBits 14 10000))) = 2 ∧
    uint (addrSub 3 (natBits 14 10000)) = 0 := by decide

/-- R18 and R39: one line of eight for load 1, none for load 0. -/
theorem test_dmux :
    dmux 8 true (natBits 3 5) = [false, false, false, false, false, true, false, false] ∧
    dmux 8 false (natBits 3 5) = List.replicate 8 false := by decide

/-! ### Edge-Triggered Cell -/

/-- VC2: pending 1 is recorded, no edge yet. -/
theorem test_cell_set_input :
    after (.cellSetInput it true) (one (.cell ⟨false, false, false⟩)) = some [.cell ⟨true, false, false⟩] := by decide
/-- VC10. -/
theorem test_cell_recompute :
    after (.cellRecompute it) (one (.cell ⟨true, false, false⟩)) = some [.cell ⟨true, false, false⟩] := by decide
/-- VC1. -/
theorem test_cell_get_output :
    returns (.cellGetOutput it) (one (.cell ⟨false, false, false⟩)) = some (.pair false true) := by decide
/-- VC3: a rising edge. -/
theorem test_cell_on_clock_rising :
    after (.cellOnClock it true) (one (.cell ⟨true, false, false⟩)) = some [.cell ⟨true, true, true⟩] := by decide
/-- VC5: a falling edge commits nothing; and VC4, 1→1 is no edge. -/
theorem test_cell_on_clock_no_edge :
    after (.cellOnClock it false) (one (.cell ⟨false, true, true⟩)) = some [.cell ⟨false, true, false⟩] ∧
    after (.cellOnClock it true) (one (.cell ⟨false, true, true⟩)) = some [.cell ⟨false, true, true⟩] := by decide

/-! ### Loadable Bit -/

/-- VB5: load 0 presents the stored bit, the value is recorded and ignored. -/
theorem test_bit_set_input :
    after (.bitSetInput it true false) (one (.bit ⟨false, false, ⟨true, false, false⟩⟩)) =
      some [.bit ⟨true, false, ⟨false, false, false⟩⟩] := by decide
/-- The example of R111. -/
theorem test_bit_recompute :
    after (.bitRecompute it) (one (.bit ⟨true, false, ⟨true, false, false⟩⟩)) =
      some [.bit ⟨true, false, ⟨false, false, false⟩⟩] := by decide
/-- VB1: the output is the stored bit, not the pending one. -/
theorem test_bit_get_output :
    returns (.bitGetOutput it) (one (.bit ⟨true, true, ⟨true, false, false⟩⟩)) = some (.bit false) := by decide
/-- The example of R113, from a stale pending input. -/
theorem test_bit_on_clock :
    after (.bitOnClock it true) (one (.bit ⟨true, true, ⟨false, false, false⟩⟩)) =
      some [.bit ⟨true, true, ⟨true, true, true⟩⟩] := by decide

/-! ### N-bit Register -/

/-- VR8, N = 3: `bits[i]` goes to bit i. -/
theorem test_reg_set_input :
    after (.regSetInput it [true, false, true] true) (one (.reg (Register.init 3))) =
      some [.reg ⟨[⟨true, true, ⟨true, false, false⟩⟩, ⟨false, true, ⟨false, false, false⟩⟩,
        ⟨true, true, ⟨true, false, false⟩⟩]⟩] := by decide
/-- VR8: four bits for N = 3. -/
theorem test_reg_set_input_shape :
    returns (.regSetInput it [true, false, true, true] true) (one (.reg (Register.init 3))) =
      some (.invalidInputShape 3 4) := by decide
/-- The example of R116. -/
theorem test_reg_recompute :
    after (.regRecompute it) (one (.reg ⟨[⟨true, false, ⟨true, false, false⟩⟩]⟩)) =
      some [.reg ⟨[⟨true, false, ⟨false, false, false⟩⟩]⟩] := by decide
/-- VR9: the bit order of 0xBEEF. -/
theorem test_reg_get_output :
    returns (.regGetOutput it) (one (.reg (regOf 0xBEEF 0 false false))) =
      some (.bits [true, true, true, true, false, true, true, true, false, true, true, true, true, true, false, true]) := by
  decide
/-- The example of R118. -/
theorem test_reg_on_clock :
    after (.regOnClock it true) (one (.reg (regOf 0 0xBEEF true false))) =
      some [.reg (regOf 0xBEEF 0xBEEF true true)] := by decide

/-! ### Memory Hierarchy -/

/-- The example of R130, on RAM-64. -/
theorem test_ram64_set_input :
    after (.ram64SetInput it (natBits 16 0x1234) (natBits 6 5) true) (one (.ram (Ram.init .ram64))) =
      some [.ram (ramOf .ram64 [] 0x1234 5 true false)] := by decide
/-- The example of R133, on RAM-64. -/
theorem test_ram64_on_clock :
    after (.ram64OnClock it true) (one (.ram (ramOf .ram64 [] 0x1234 5 true false))) =
      some [.ram (ramOf .ram64 [(5, 0x1234)] 0x1234 5 true true)] := by decide
/-- VM13: a read before the edge returns the old word. -/
theorem test_ram64_get_output :
    returns (.ram64GetOutput it (natBits 6 63)) (one (.ram (ramOf .ram64 [] 0x2222 63 true false))) =
      some (.bits (List.replicate 16 false)) := by decide
/-- VM14. -/
theorem test_ram64_recompute :
    after (.ram64Recompute it) (one (.ram (ramOf .ram64 [] 0x1111 5 true false))) =
      some [.ram (ramOf .ram64 [] 0x1111 5 true false)] := by decide
theorem test_ram64_index_read :
    returns (.ram64IndexRead it (natBits 6 5)) (one (.ram (ramOf .ram64 [(5, 0x1234)] 0 0 false true))) =
      some (.bits (natBits 16 0x1234)) := by decide
/-- P2: INDEX_WRITE records load 1 (decision D6). -/
theorem test_ram64_index_write :
    after (.ram64IndexWrite it (natBits 6 32) (natBits 16 0x6666)) (one (.ram (ramOf .ram64 [] 0x5555 0 false false))) =
      some [.ram (ramOf .ram64 [] 0x6666 32 true false)] := by decide

/-- VM7, RAM-8: the word is checked first. -/
theorem test_ram8_set_input :
    returns (.ram8SetInput it (natBits 15 0) (natBits 4 0) true) (one (.ram (Ram.init .ram8))) =
      some (.invalidInputShape 16 15) := by decide
theorem test_ram8_recompute :
    after (.ram8Recompute it) (one (.ram (ramOf .ram8 [(1, 7)] 9 2 true false))) =
      some [.ram (ramOf .ram8 [(1, 7)] 9 2 true false)] := by decide
/-- VM6, RAM-8. -/
theorem test_ram8_get_output :
    returns (.ram8GetOutput it (natBits 2 0)) (one (.ram (Ram.init .ram8))) = some (.invalidInputShape 3 2) := by decide
/-- R133: the write goes between the words that are there. -/
theorem test_ram8_on_clock :
    after (.ram8OnClock it true) (one (.ram (ramOf .ram8 [(1, 7), (6, 8)] 9 4 true false))) =
      some [.ram (ramOf .ram8 [(1, 7), (4, 9), (6, 8)] 9 4 true true)] := by decide
/-- P3. -/
theorem test_ram8_index_read :
    returns (.ram8IndexRead it (natBits 3 2)) (one (.ram (ramOf .ram8 [(1, 0x0101), (2, 0x0102)] 0 0 false false))) =
      some (.bits (natBits 16 0x0102)) := by decide
/-- VM12. -/
theorem test_ram8_index_write :
    after (.ram8IndexWrite it (natBits 3 7) (natBits 16 0x00FF)) (one (.ram (Ram.init .ram8))) =
      some [.ram (ramOf .ram8 [] 0x00FF 7 true false)] := by decide

/-- VM8, RAM-512. -/
theorem test_ram512_set_input :
    returns (.ram512SetInput it (natBits 16 0) (natBits 10 0) true) (one (.ram (Ram.init .ram512))) =
      some (.invalidInputShape 9 10) := by decide
theorem test_ram512_recompute :
    after (.ram512Recompute it) (one (.ram (ramOf .ram512 [] 9 256 true true))) =
      some [.ram (ramOf .ram512 [] 9 256 true true)] := by decide
/-- VM3, max. -/
theorem test_ram512_get_output :
    returns (.ram512GetOutput it (natBits 9 511)) (one (.ram (ramOf .ram512 [(0, 0xA5A5), (511, 0x5A5A)] 0 0 false false))) =
      some (.bits (natBits 16 0x5A5A)) := by decide
/-- VM3: the last write has load 0 and mid keeps its word (R145). -/
theorem test_ram512_on_clock :
    after (.ram512OnClock it true) (one (.ram (ramOf .ram512 [(256, 0x1234)] 0xFFFF 256 false false))) =
      some [.ram (ramOf .ram512 [(256, 0x1234)] 0xFFFF 256 false true)] := by decide
theorem test_ram512_index_read :
    returns (.ram512IndexRead it (natBits 8 0)) (one (.ram (Ram.init .ram512))) = some (.invalidInputShape 9 8) := by decide
theorem test_ram512_index_write :
    returns (.ram512IndexWrite it (natBits 8 0) (natBits 15 0)) (one (.ram (Ram.init .ram512))) =
      some (.invalidInputShape 16 15) := by decide

/-- VM4: the last SET_INPUT of the sequence. -/
theorem test_ram4k_set_input :
    after (.ram4kSetInput it (natBits 16 0xFFFF) (natBits 12 2048) false)
        (one (.ram (ramOf .ram4k [(2048, 0x1234)] 0x1234 2048 true false))) =
      some [.ram (ramOf .ram4k [(2048, 0x1234)] 0xFFFF 2048 false false)] := by decide
theorem test_ram4k_recompute :
    after (.ram4kRecompute it) (one (.ram (ramOf .ram4k [(2048, 1)] 9 0 true true))) =
      some [.ram (ramOf .ram4k [(2048, 1)] 9 0 true true)] := by decide
/-- VM4, max - 1. -/
theorem test_ram4k_get_output :
    returns (.ram4kGetOutput it (natBits 12 4094)) (one (.ram (ramOf .ram4k [(4095, 0x5A5A)] 0 0 false false))) =
      some (.bits (natBits 16 0)) := by decide
/-- R133, R69: writing 0 clears the word, and the array lists no entry for it. -/
theorem test_ram4k_on_clock :
    after (.ram4kOnClock it true) (one (.ram (ramOf .ram4k [(0, 1), (2048, 0x1234)] 0 2048 true false))) =
      some [.ram (ramOf .ram4k [(0, 1)] 0 2048 true true)] := by decide
theorem test_ram4k_index_read :
    returns (.ram4kIndexRead it (natBits 12 2048)) (one (.ram (ramOf .ram4k [(2048, 0x1234)] 0 0 false false))) =
      some (.bits (natBits 16 0x1234)) := by decide
theorem test_ram4k_index_write :
    returns (.ram4kIndexWrite it (natBits 13 0) (natBits 16 0)) (one (.ram (Ram.init .ram4k))) =
      some (.invalidInputShape 12 13) := by decide

/-- P5: a failed write changes nothing (R201). -/
theorem test_ram16k_set_input :
    after (.ram16kSetInput it (natBits 15 0) (natBits 14 0) true)
        (one (.ram (ramOf .ram16k [(16383, 0x8001)] 0xCAFE 10000 true false))) =
      some [.ram (ramOf .ram16k [(16383, 0x8001)] 0xCAFE 10000 true false)] := by decide
theorem test_ram16k_recompute :
    after (.ram16kRecompute it) (one (.ram (ramOf .ram16k [] 0xCAFE 10000 true false))) =
      some [.ram (ramOf .ram16k [] 0xCAFE 10000 true false)] := by decide
/-- VM10. -/
theorem test_ram16k_get_output :
    returns (.ram16kGetOutput it (natBits 14 10000)) (one (.ram (ramOf .ram16k [(10000, 0xCAFE)] 0 0 false false))) =
      some (.bits (natBits 16 0xCAFE)) := by decide
/-- VM10. -/
theorem test_ram16k_on_clock :
    after (.ram16kOnClock it true) (one (.ram (ramOf .ram16k [(16383, 0x8001)] 0xCAFE 10000 true false))) =
      some [.ram (ramOf .ram16k [(10000, 0xCAFE), (16383, 0x8001)] 0xCAFE 10000 true true)] := by decide
/-- VM6, RAM-16K. -/
theorem test_ram16k_index_read :
    returns (.ram16kIndexRead it (natBits 13 0)) (one (.ram (Ram.init .ram16k))) = some (.invalidInputShape 14 13) := by
  decide
/-- P5. -/
theorem test_ram16k_index_write :
    after (.ram16kIndexWrite it (natBits 14 16383) (natBits 16 0x8001)) (one (.ram (Ram.init .ram16k))) =
      some [.ram (ramOf .ram16k [] 0x8001 16383 true false)] := by decide

/-- The composition tree of RAM-8 at construction reads 0, and after `treeSetInput` and a rising edge it reads the word (R132,
R133, R136). -/
theorem test_tree_ram8 :
    treeGetOutput [3] (treeInit [3]) (natBits 3 5) = List.replicate 16 false ∧
    treeGetOutput [3] (treeOnClock [3] (treeSetInput [3] (treeInit [3]) 0xBEEF (natBits 3 5) true) true) (natBits 3 5) =
      natBits 16 0xBEEF := by decide

/-! ### Program Counter -/

/-- VP4, VP8: reset beats load, load beats increment (R160). -/
theorem test_pc_next :
    pcNext 0x1234 0x5678 true true true = 0 ∧ pcNext 0x1234 0x5678 true true false = 0x5678 ∧
    pcNext 0x1234 0x5678 false true false = 0x1235 ∧ pcNext 0x1234 0x5678 false false false = 0x1234 ∧
    pcNext 0xFFFF 0 false true false = 0 := by decide
/-- The example of R162: the count is presented with load 1 forced, and stays. -/
theorem test_pc_set_input :
    after (.pcSetInput it (natBits 16 0x0100) true true false) (one (.pc (pcAt 0x0010))) =
      some [.pc ⟨0x0100, true, true, false, regOf 0x0010 0x0100 true false⟩] := by decide
/-- VP11: 17 bits. -/
theorem test_pc_set_input_shape :
    returns (.pcSetInput it (natBits 17 0) false true false) (one (.pc (pcAt 1))) = some (.invalidInputShape 16 17) := by
  decide
/-- The example of R163. -/
theorem test_pc_recompute :
    after (.pcRecompute it) (one (.pc ⟨0, false, true, false, regOf 0x0005 0 false false⟩)) =
      some [.pc ⟨0, false, true, false, regOf 0x0005 0x0006 true false⟩] := by decide
theorem test_pc_get_output :
    returns (.pcGetOutput it) (one (.pc (pcAt 0x1234))) = some (.bits (natBits 16 0x1234)) := by decide
/-- The example of R165 (VP9): the wrap from 0xFFFF. -/
theorem test_pc_on_clock :
    after (.pcOnClock it true) (one (.pc ⟨0, false, true, false, regOf 0xFFFF 0 false false⟩)) =
      some [.pc ⟨0, false, true, false, regOf 0 0 true true⟩] := by decide
/-- VP13: a second `on_clock(1)` commits nothing, and presents the count after it. -/
theorem test_pc_on_clock_twice :
    after (.pcOnClock it true) (one (.pc ⟨0, false, true, false, regOf 1 1 true true⟩)) =
      some [.pc ⟨0, false, true, false, regOf 1 2 true true⟩] := by decide

/-! ### Clock -/

/-- The example of R180, after a component that is subscribed already. -/
theorem test_clock_subscribe :
    exec (.clockSubscribe [.ofTop 8, .ofTop 3]) { State.reset with clock := ⟨1, [8]⟩ } =
      .next { State.reset with clock := ⟨1, [8, 8, 3]⟩ } := by rfl
/-- R180, decision D11: the Program Counter's Register may not be subscribed. -/
theorem test_clock_subscribe_owned :
    refusedFor (.clockSubscribe [⟨8, [0]⟩]) State.reset = some .ownedComponent := by decide
/-- VK2: a component subscribed twice counts once. -/
theorem test_clock_tick_twice_subscribed :
    after .clockTick { one (.pc ⟨0, false, true, false, regOf 0 1 true false⟩) with clock := ⟨0, [0, 0]⟩ } =
      some [.pc ⟨0, false, true, false, regOf 1 2 true false⟩] := by decide
/-- VK3: the TICK after a direct `on_clock(1)` commits nothing. -/
theorem test_clock_tick_at_level_one :
    after .clockTick (one (.pc ⟨0, false, true, false, regOf 1 2 true true⟩)) =
      some [.pc ⟨0, false, true, false, regOf 1 2 true false⟩] := by decide
/-- VK6. -/
theorem test_clock_elapsed_ticks : returns .clockElapsedTicks State.reset = some (.count 0) := by decide

/-! ### Refusals -/

theorem test_refusals :
    refusedFor (.cellOnClock ⟨1, [0]⟩ true) State.reset = some .ownedComponent ∧
    refusedFor (.cellOnClock (.ofTop 1) true) State.reset = some .wrongComponent ∧
    refusedFor (.ram8Recompute (.ofTop 4)) State.reset = some .wrongComponent ∧
    refusedFor (.cellOnClock (.ofTop 9) true) State.reset = some .noSuchComponent := by decide

/-- Decision D10. -/
theorem test_construct_zero_width : construct [.cell, .reg 0] = .error .zeroWidthRegister := by rfl

/-! ### Witnesses

The reset state holds one component of each kind (numbers 0 to 8), so most hypotheses are met there; `subscribed` is that state
with every component subscribed. -/

/-- The reset state with every component subscribed. -/
def subscribed : State := { State.reset with clock := ⟨0, [0, 1, 2, 3, 4, 5, 6, 7, 8]⟩ }

theorem witness_ConversionsAreExactAndInvertible :
    0 < 16 ∧ intBits 16 0 = some (natBits 16 0) ∧ intBits 16 65535 = some (natBits 16 65535) ∧
    intBits 16 (-32768) = some (natBits 16 32768) ∧ intBits 16 (-1) = some (natBits 16 65535) ∧
    intBits 16 65536 = none ∧ intBits 16 (-32769) = none ∧ intBits 1 (-1) = some [true] ∧ intBits 1 (-2) = none ∧
    (zext 17 (natBits 16 65535)).length = 17 := by decide

theorem witness_AtMostOneChildIsLoaded :
    (natBits 14 16383).length = Level.ram16k.addrWidth ∧
    dmux 4 true (addrSel 12 (natBits 14 16383)) = [false, false, false, true] ∧
    (natBits 3 0).length = Level.ram8.addrWidth ∧ dmux 8 false (addrSel 0 (natBits 3 0)) = List.replicate 8 false := by decide

theorem witness_AddressSplitNamesTheWord :
    (natBits 14 16383).length = Level.ram16k.addrWidth ∧ (natBits 3 0).length = Level.ram8.addrWidth ∧
    uint (natBits 14 16383) = 3 * 2 ^ 12 + 4095 := by decide

theorem witness_EncodeOfDecodeIsTheCall : decode ⟨.reg, .setInput, [it], [1], [1, 1]⟩ = .ok (.regSetInput it [true] true) := by
  decide

/-- One call for each clause: a raw value 2; and for each family one operand too few or too many. -/
theorem witness_NonBitsAndPartialOperandsAreRefused :
    decode ⟨.cell, .onClock, [it], [], [2]⟩ = .error .notABit ∧
    decode ⟨.cell, .setInput, [it], [], [0, 0]⟩ = .error .partialOperands ∧
    decode ⟨.bit, .setInput, [it], [], [0]⟩ = .error .partialOperands ∧
    decode ⟨.reg, .setInput, [it], [1], [0]⟩ = .error .partialOperands ∧
    decode ⟨.ram .ram8, .setInput, [it], [16, 3], bundle 19 0⟩ = .error .partialOperands ∧
    decode ⟨.pc, .setInput, [it], [16], bundle 18 0⟩ = .error .partialOperands := by decide

theorem witness_StepPerformsTheOldestCall :
    (State.reset.issue [encode .clockTick, encode .clockElapsedTicks]).calls = encode .clockTick :: [encode .clockElapsedTicks] ∧
    decode (encode .clockTick) = .ok .clockTick := by decide

theorem witness_StepWithoutAnOperationChangesNothing :
    State.reset.calls = [] ∧
    (State.reset.withFetchWord 16 0).calls = ⟨.clock, .setInput, [], [], []⟩ :: [] ∧
    decode ⟨.clock, .setInput, [], [], []⟩ = .error .unknownOperation := by decide

theorem witness_ConstructionIsAllZero : Kind.reg 0 ∈ [Kind.reg 0] ∧ Kind.reg 0 ∉ [Kind.reg 1, .cell, .bit, .ram .ram8, .pc] := by
  decide

theorem witness_ConstructionMeetsTheInvariant : ∃ s, construct [.reg 1, .ram .ram16k] = .ok s := ⟨_, rfl⟩

theorem witness_StepKeepsTheInvariant : State.reset.wf = true ∧ ∃ t, step State.reset = .next t := ⟨by decide, _, rfl⟩

/-- The step takes a call that writes: VC2. -/
theorem witness_StepKeepsTheTopology :
    step (State.reset.issue [encode (.cellSetInput (.ofTop 0) true)]) =
      .next { State.reset with components := State.reset.components.set 0 (.cell ⟨true, false, false⟩) } := by rfl

/-- The hypotheses of the statements about one operation of a Cell, a Loadable Bit, a Register and a Program Counter. -/
theorem witness_components :
    State.reset.components[0]? = some (.cell Cell.init) ∧ State.reset.components[1]? = some (.bit LoadableBit.init) ∧
    State.reset.components[2]? = some (.reg (Register.init 16)) ∧ State.reset.components[8]? = some (.pc Pc.init) := by decide

theorem witness_CellSetInputRecordsTheNextValue : State.reset.components[0]? = some (.cell Cell.init) := by decide
theorem witness_CellReadAndRecomputeWriteNothing : State.reset.components[0]? = some (.cell Cell.init) := by decide
theorem witness_CellOnClockCommitsOnARisingEdge :
    (one (.cell ⟨true, false, false⟩)).components[0]? = some (.cell ⟨true, false, false⟩) := by decide
theorem witness_BitSetInputPresentsTheNextValue : State.reset.components[1]? = some (.bit LoadableBit.init) := by decide
theorem witness_BitRecomputePresentsTheRecordedInputs : State.reset.components[1]? = some (.bit LoadableBit.init) := by decide
theorem witness_BitGetOutputReturnsTheStoredBit : State.reset.components[1]? = some (.bit LoadableBit.init) := by decide
theorem witness_BitOnClockRecomputesThenCommits :
    (one (.bit ⟨true, true, ⟨false, false, false⟩⟩)).components[0]? = some (.bit ⟨true, true, ⟨false, false, false⟩⟩) := by decide

theorem witness_RegSetInputPairsEachBit :
    State.reset.components[2]? = some (.reg (Register.init 16)) ∧
    (natBits 16 0xBEEF).length = (Register.init 16).bits.length ∧
    (Register.init 16).bits[15]? = some LoadableBit.init ∧ (natBits 16 0xBEEF)[15]? = some true := by decide
theorem witness_RegRecomputeRecomputesEachBit :
    State.reset.components[2]? = some (.reg (Register.init 16)) ∧
    (Register.init 16).bits[0]? = some LoadableBit.init := by decide
theorem witness_RegGetOutputReturnsTheBitsInOrder :
    State.reset.components[2]? = some (.reg (Register.init 16)) ∧
    (Register.init 16).bits[0]? = some LoadableBit.init := by decide
theorem witness_RegOnClockReachesEveryBit :
    State.reset.components[2]? = some (.reg (Register.init 16)) ∧
    (Register.init 16).bits[15]? = some LoadableBit.init := by decide
theorem witness_RegisterCommitsTheWholeWord :
    State.reset.components[2]? = some (.reg (Register.init 16)) ∧
    (natBits 16 0xFFFF).length = (Register.init 16).bits.length ∧
    (Component.reg (Register.init 16)).levelIs false = true := by decide

theorem witness_FlatViewsAgree :
    (Component.reg (Register.init 1)).wf = true ∧ [true].length = (Register.init 1).width ∧
    (Component.reg (regOf 0x1234 0xBEEF true true)).wf = true ∧ (Component.pc Pc.init).wf = true := by decide

/-- The hypotheses of the statements about one operation of a RAM level: RAM-16K at its largest address, RAM-8 at its smallest. -/
theorem witness_RamSetInputRecordsTheWrite :
    State.reset.components[7]? = some (.ram (Ram.init .ram16k)) ∧ (Ram.init .ram16k).level = .ram16k ∧
    (natBits 16 1).length = 16 ∧ (natBits 14 16383).length = Level.ram16k.addrWidth ∧
    State.reset.components[3]? = some (.ram (Ram.init .ram8)) ∧ (natBits 3 0).length = Level.ram8.addrWidth := by decide
theorem witness_RamIndexWriteRecordsALoadedWrite :
    State.reset.components[6]? = some (.ram (Ram.init .ram4k)) ∧ (Ram.init .ram4k).level = .ram4k ∧
    (natBits 16 1).length = 16 ∧ (natBits 12 4095).length = Level.ram4k.addrWidth := by decide
theorem witness_RamRecomputeChangesNothing :
    State.reset.components[5]? = some (.ram (Ram.init .ram512)) ∧ (Ram.init .ram512).level = .ram512 := by decide
theorem witness_RamReadReturnsTheAddressedWord :
    State.reset.components[4]? = some (.ram (Ram.init .ram64)) ∧ (Ram.init .ram64).level = .ram64 ∧
    (natBits 6 63).length = Level.ram64.addrWidth := by decide
/-- A rising edge with load recorded, at the largest address. -/
theorem witness_RamOnClockWritesTheRecordedWord :
    (one (.ram (ramOf .ram64 [(5, 1)] 2 63 true false))).components[0]? = some (.ram (ramOf .ram64 [(5, 1)] 2 63 true false)) ∧
    (ramOf .ram64 [(5, 1)] 2 63 true false).level = .ram64 ∧ Memory.wf [(5, 1)] = true ∧
    uint (ramOf .ram64 [(5, 1)] 2 63 true false).recAddress = 63 := by decide
theorem witness_WriteLeavesOtherWordsAlone :
    State.reset.components[3]? = some (.ram (Ram.init .ram8)) ∧ (Ram.init .ram8).level = .ram8 ∧
    (Ram.init .ram8).mem.wf = true ∧ (Ram.init .ram8).prev = false ∧ (natBits 16 9).length = 16 ∧
    (natBits 3 0).length = Level.ram8.addrWidth ∧ (natBits 3 7).length = Level.ram8.addrWidth ∧
    natBits 3 7 ≠ natBits 3 0 := by decide
/-- Addresses 0, max and one between (S7). -/
theorem witness_WriteTickReadRoundTrip :
    subscribed.components[7]? = some (.ram (Ram.init .ram16k)) ∧ (Ram.init .ram16k).mem.wf = true ∧
    (Ram.init .ram16k).prev = false ∧ 7 ∈ subscribed.clock.subscribers ∧ (natBits 16 0x8001).length = 16 ∧
    (natBits 14 0).length = Level.ram16k.addrWidth ∧ (natBits 14 16383).length = Level.ram16k.addrWidth ∧
    (natBits 14 8192).length = Level.ram16k.addrWidth := by decide
theorem witness_NoLoadHolds :
    subscribed.components[3]? = some (.ram (Ram.init .ram8)) ∧ 3 ∈ subscribed.clock.subscribers ∧
    (natBits 16 1).length = 16 ∧ (natBits 3 7).length = Level.ram8.addrWidth := by decide
theorem witness_RamTreeFollowsTheFlatLevel :
    (ramOf .ram16k [(10000, 0xCAFE)] 1 16383 true false).mem.wf = true ∧
    (natBits 14 0).length = Level.ram16k.addrWidth := by decide
theorem witness_RamTreeReadsTheFlatWord : (natBits 14 10000).length = (Ram.init .ram16k).level.addrWidth := by decide

theorem witness_PcSetInputDrivesTheRegister :
    State.reset.components[8]? = some (.pc Pc.init) ∧ Pc.init.reg.width = 16 ∧ (natBits 16 0xFFFF).length = 16 := by decide
theorem witness_PcGetOutputReturnsTheCount :
    State.reset.components[8]? = some (.pc Pc.init) ∧ Pc.init.reg.width = 16 := by decide
theorem witness_PcOnClockCommitsTheNextValue :
    (one (.pc (pcAt 0xFFFF))).components[0]? = some (.pc (pcAt 0xFFFF)) ∧ (pcAt 0xFFFF).reg.width = 16 ∧
    (Component.pc (pcAt 0xFFFF)).levelIs false = true := by decide
theorem witness_PcPriority :
    subscribed.components[8]? = some (.pc Pc.init) ∧ Pc.init.reg.width = 16 ∧ (Component.pc Pc.init).levelIs false = true ∧
    8 ∈ subscribed.clock.subscribers ∧ (natBits 16 0x5678).length = 16 := by decide
theorem witness_PcCountsTicks :
    (one (.pc ⟨0, false, true, false, regOf 0xFFFF 0 false false⟩)).components[0]? =
      some (.pc ⟨0, false, true, false, regOf 0xFFFF 0 false false⟩) ∧
    (regOf 0xFFFF 0 false false).width = 16 ∧
    (Component.pc ⟨0, false, true, false, regOf 0xFFFF 0 false false⟩).levelIs false = true ∧
    0 ∈ (one (.pc ⟨0, false, true, false, regOf 0xFFFF 0 false false⟩)).clock.subscribers := by decide

theorem witness_SubscribeAppendsInOrder :
    (∀ k ∈ [8, 0, 8], k < State.reset.components.length) ∧ State.reset.owned ⟨8, [0, 15, 0]⟩ = true ∧
    State.reset.owned ⟨7, [3, 7, 7, 7, 7]⟩ = true ∧ State.reset.owned ⟨7, [4]⟩ = false := by decide
theorem witness_OnClockIsTheEdgeOfItsComponent :
    (Instr.ram4kOnClock (.ofTop 6) true).onClockOf = some (.ofTop 6, true) ∧
    State.reset.components[6]? = some (.ram (Ram.init .ram4k)) ∧
    (Instr.ram4kOnClock (.ofTop 6) true).fits (.ram (Ram.init .ram4k)) = true := by decide
theorem witness_TickClocksEverySubscriber :
    subscribed.components[8]? = some (.pc Pc.init) ∧ 8 ∈ subscribed.clock.subscribers ∧
    State.reset.components[8]? = some (.pc Pc.init) ∧ 8 ∉ State.reset.clock.subscribers := by decide
theorem witness_TickDoesNotDependOnTheOrder : [8, 7, 6, 5, 4, 3, 2, 1, 0].Perm subscribed.clock.subscribers := by decide
/-- A component at level 1, for the second clause. -/
theorem witness_TickLeavesSubscribersLow :
    (one (.cell ⟨false, true, true⟩)).components[0]? = some (.cell ⟨false, true, true⟩) ∧
    0 ∈ (one (.cell ⟨false, true, true⟩)).clock.subscribers ∧ (Component.cell ⟨false, true, true⟩).wf = true ∧
    (Component.cell ⟨false, true, true⟩).levelIs true = true := by decide
theorem witness_TickCountIsUsedByNoOperation :
    Instr.clockTick ≠ .clockElapsedTicks ∧ (∃ t, exec .clockTick State.reset = .next t) ∧
    exec (.cellGetOutput (.ofTop 9)) State.reset = .refused .noSuchComponent := ⟨by decide, ⟨_, rfl⟩, rfl⟩

theorem witness_OutputsChangeOnlyAtAnEdge :
    State.reset.wf = true ∧
    (∀ i ∈ [Instr.cellSetInput (.ofTop 0) true, .ram8IndexWrite (.ofTop 3) (natBits 3 7) (natBits 16 1)], i.clocks = false) ∧
    ∃ t, perform [.cellSetInput (.ofTop 0) true, .ram8IndexWrite (.ofTop 3) (natBits 3 7) (natBits 16 1)] State.reset =
      .next t := ⟨by decide, by decide, _, rfl⟩
/-- Level 0; a component at level 1; level 1. -/
theorem witness_StoredValuesChangeOnlyOnARisingEdge :
    (one (.cell ⟨true, false, true⟩)).wf = true ∧
    (Instr.cellOnClock it true).onClockOf = some (.ofTop 0, true) ∧ (Instr.cellOnClock it false).onClockOf = some (.ofTop 0, false) ∧
    (∃ t, exec (.cellOnClock it true) (one (.cell ⟨true, false, true⟩)) = .next t) ∧
    (one (.cell ⟨true, false, true⟩)).components[0]? = some (.cell ⟨true, false, true⟩) ∧
    (Component.cell ⟨true, false, true⟩).levelIs true = true := ⟨by decide, rfl, rfl, ⟨_, rfl⟩, by decide, by decide⟩
theorem witness_RaisedConditionWritesNothing :
    exec (.pcSetInput (.ofTop 8) [] true false false) State.reset =
      .next { State.reset with reply := .invalidInputShape 16 0 } := by rfl
/-- Lengths one below and one above; the word checked before the address. -/
theorem witness_WrongLengthsRaiseTheCondition :
    State.reset.components[2]? = some (.reg (Register.init 16)) ∧ (natBits 17 0).length ≠ (Register.init 16).bits.length ∧
    State.reset.components[8]? = some (.pc Pc.init) ∧ (natBits 15 0).length ≠ 16 ∧
    State.reset.components[7]? = some (.ram (Ram.init .ram16k)) ∧ (natBits 17 0).length ≠ 16 ∧
    (natBits 16 0).length = 16 ∧ (natBits 13 0).length ≠ Level.ram16k.addrWidth ∧
    (natBits 15 0).length ≠ Level.ram16k.addrWidth := by decide

/-- One operation of each kind of component but the RAM levels, on the components of the reset state. -/
def samples : List Instr :=
  [.cellSetInput (.ofTop 0) true, .cellRecompute (.ofTop 0), .cellGetOutput (.ofTop 0), .cellOnClock (.ofTop 0) true] ++
  [.bitSetInput (.ofTop 1) true true, .bitRecompute (.ofTop 1), .bitGetOutput (.ofTop 1), .bitOnClock (.ofTop 1) true] ++
  [.regSetInput (.ofTop 2) (natBits 16 1) true, .regRecompute (.ofTop 2), .regGetOutput (.ofTop 2), .regOnClock (.ofTop 2) true] ++
  [.pcSetInput (.ofTop 8) (natBits 16 1) true true true, .pcRecompute (.ofTop 8), .pcGetOutput (.ofTop 8),
    .pcOnClock (.ofTop 8) true] ++
  [.clockSubscribe [.ofTop 8, .ofTop 0], .clockTick, .clockElapsedTicks]

/-- The six operations of a RAM level, at its largest address. -/
def ramSamples (X : Level) (k : Nat) : List Instr :=
  [X.setInput (.ofTop k) (natBits 16 1) (natBits X.addrWidth (2 ^ X.addrWidth - 1)) true, X.recompute (.ofTop k),
    X.getOutput (.ofTop k) (natBits X.addrWidth (2 ^ X.addrWidth - 1)), X.onClock (.ofTop k) true,
    X.indexRead (.ofTop k) (natBits X.addrWidth 0), X.indexWrite (.ofTop k) (natBits X.addrWidth 0) (natBits 16 1)]

/-- All 49 operations meet the hypotheses at the reset state. -/
theorem witness_WellShapedOperationsComplete :
    ((samples ++ ramSamples .ram8 3 ++ ramSamples .ram64 4 ++ ramSamples .ram512 5 ++ ramSamples .ram4k 6 ++
      ramSamples .ram16k 7).all fun i => i.wellFormed && State.reset.serves i) = true ∧
    (samples ++ ramSamples .ram8 3 ++ ramSamples .ram64 4 ++ ramSamples .ram512 5 ++ ramSamples .ram4k 6 ++
      ramSamples .ram16k 7).length = 49 := by decide

theorem witness_OwnedComponentsAreRefused :
    (Instr.regOnClock ⟨8, [0]⟩ true).refs = [⟨8, [0]⟩] ∧ State.reset.owned ⟨8, [0]⟩ = true ∧
    (Instr.clockSubscribe [⟨1, [0]⟩]).refs = [⟨1, [0]⟩] ∧ State.reset.owned ⟨1, [0]⟩ = true := by decide
/-- A write, a read, and CLOCK.SUBSCRIBE, which name component 0 and not component 1. -/
theorem witness_OperationsTouchOnlyWhatTheyName :
    (∃ t, exec (.cellSetInput (.ofTop 0) true) State.reset = .next t) ∧
    (∃ t, exec (.cellGetOutput (.ofTop 0)) State.reset = .next t) ∧ (Instr.cellGetOutput (.ofTop 0)).reads = true ∧
    (∃ t, exec (.clockSubscribe [.ofTop 0]) State.reset = .next t) ∧
    Ref.ofTop 1 ∉ (Instr.cellSetInput (.ofTop 0) true).refs :=
  ⟨⟨_, rfl⟩, ⟨_, rfl⟩, rfl, ⟨_, rfl⟩, by decide⟩
theorem witness_LastRecordedInputsWin :
    (∃ t, exec (.cellSetInput (.ofTop 0) true) State.reset = .next t) ∧
    (∃ t, exec (.bitSetInput (.ofTop 1) true true) State.reset = .next t) ∧
    (∃ t, exec (.regSetInput (.ofTop 2) (natBits 16 1) true) State.reset = .next t) ∧
    State.reset.components[2]? = some (.reg (Register.init 16)) ∧ (natBits 16 2).length = (Register.init 16).width ∧
    (∃ t, exec (Level.ram64.setInput (.ofTop 4) (natBits 16 0x3333) (natBits 6 9) true) State.reset = .next t) ∧
    (natBits 16 0x4444).length = 16 ∧ (natBits 6 10).length = Level.ram64.addrWidth ∧ State.reset.wf = true ∧
    ∃ t, exec (.pcSetInput (.ofTop 8) (natBits 16 1) true true true) State.reset = .next t :=
  ⟨⟨_, rfl⟩, ⟨_, rfl⟩, ⟨_, rfl⟩, by decide, by decide, ⟨_, rfl⟩, by decide, by decide, by decide, _, rfl⟩

end Sys2Proof.Tests
end

section
/-! SUPPORT. Laws of the two integer readings of a bit sequence (R16), and the settlement of the obligation on conversions. -/

namespace Sys2Proof.Machine

open Sys2Proof

theorem natBits_uint_of_length {n : Nat} {w : Bits} (h : w.length = n) : natBits n (uint w) = w := by
  subst h
  exact natBits_uint w

/-- A run of j copies of a bit has the value `2^j - 1` or 0, written without the subtraction. -/
theorem uint_replicate_add (b : Bit) (j : Nat) : uint (List.replicate j b) + b.toNat = b.toNat * 2 ^ j := by
  induction j with
  | zero => simp
  | succ j ih => rw [List.replicate_succ, uint_cons, Nat.pow_succ]; linarith

theorem uint_replicate_false (j : Nat) : uint (List.replicate j false) = 0 := by
  simpa using uint_replicate_add false j

theorem sint_concat (as : Bits) (b : Bit) : sint (as ++ [b]) = (uint as : Int) - (b.toNat : Int) * 2 ^ as.length := by
  cases b
  · simp [sint, uint_append]
  · simp [sint, uint_append, pow_succ]; ring

/-- The two's-complement reading of a sequence, by comparison of its value with half the range. -/
theorem sint_eq_ite {m : Nat} {w : Bits} (h : w.length = m + 1) :
    sint w = if uint w < 2 ^ m then (uint w : Int) else (uint w : Int) - 2 ^ (m + 1) := by
  obtain ⟨as, b, rfl⟩ : ∃ as b, w = as ++ [b] := (List.eq_nil_or_concat' w).resolve_left (by rintro rfl; simp at h)
  obtain rfl : as.length = m := by simpa using h
  have hlt := uint_lt as
  rw [sint_concat, uint_append]
  cases b
  · simp [hlt]
  · simp [pow_succ]; ring

/-- Copies of the top bit do not change the two's-complement reading. -/
theorem sint_append_replicate_last {w : Bits} (h : w ≠ []) (j : Nat) :
    sint (w ++ List.replicate j (w.getLastD false)) = sint w := by
  obtain ⟨as, b, rfl⟩ := (List.eq_nil_or_concat' w).resolve_left h
  have hrep : as ++ [b] ++ List.replicate j b = as ++ List.replicate j b ++ [b] := by
    rw [List.append_assoc, List.append_assoc, ← List.replicate_succ', List.replicate_succ, List.singleton_append]
  have hrun : (uint (List.replicate j b) : Int) + b.toNat = b.toNat * 2 ^ j := by
    exact_mod_cast uint_replicate_add b j
  rw [List.getLastD_concat, hrep, sint_concat, sint_concat, uint_append, List.length_append, List.length_replicate]
  push_cast
  rw [pow_add]
  linear_combination (2 ^ as.length : Int) * hrun

theorem intBits_uint {n : Nat} {w : Bits} (h : w.length = n) : intBits n (uint w) = some w := by
  have hlt : (uint w : Int) < 2 ^ n := by exact_mod_cast h ▸ uint_lt w
  rw [intBits, if_pos (by omega), if_pos hlt, Int.toNat_natCast, natBits_uint_of_length h]

/-- A negative integer in range converts to the bits of `k + 2^n`. -/
theorem intBits_neg {m : Nat} {k : Int} (h : -2 ^ m ≤ k) (hk : k < 0) :
    intBits (m + 1) k = some (natBits (m + 1) (k + 2 ^ (m + 1)).toNat) := by
  rw [intBits, if_neg (by omega), if_pos (by rw [pow_succ]; omega)]

theorem sint_range {m : Nat} {w : Bits} (h : w.length = m + 1) : -2 ^ m ≤ sint w ∧ sint w < 2 ^ m := by
  have hlt : (uint w : Int) < 2 ^ (m + 1) := by exact_mod_cast h ▸ uint_lt w
  have hhalf : (uint w < 2 ^ m) ↔ (uint w : Int) < 2 ^ m := by exact_mod_cast Iff.rfl
  rw [sint_eq_ite h]
  rw [pow_succ] at hlt ⊢
  split <;> omega

theorem intBits_sint {m : Nat} {w : Bits} (h : w.length = m + 1) : intBits (m + 1) (sint w) = some w := by
  have hrange := sint_range h
  have hlt : (uint w : Int) < 2 ^ (m + 1) := by exact_mod_cast h ▸ uint_lt w
  by_cases hhalf : uint w < 2 ^ m
  · rw [sint_eq_ite h, if_pos hhalf, intBits_uint h]
  · have hs : sint w = (uint w : Int) - 2 ^ (m + 1) := by rw [sint_eq_ite h, if_neg hhalf]
    rw [intBits_neg hrange.1 (by omega), hs, sub_add_cancel, Int.toNat_natCast, natBits_uint_of_length h]

/-- An integer from `-2^m` to -1 is the two's-complement reading of its conversion to m + 1 bits. -/
theorem sint_natBits_neg {m : Nat} {k : Int} (h : -2 ^ m ≤ k) (hk : k < 0) :
    sint (natBits (m + 1) (k + 2 ^ (m + 1)).toNat) = k := by
  have hpow : (2 : Int) ^ (m + 1) = 2 * 2 ^ m := pow_succ' 2 m
  have hpow' : (2 : Nat) ^ (m + 1) = 2 * 2 ^ m := pow_succ' 2 m
  have hcast : ((2 ^ m : Nat) : Int) = 2 ^ m := by push_cast; rfl
  have hval : uint (natBits (m + 1) (k + 2 ^ (m + 1)).toNat) = (k + 2 ^ (m + 1)).toNat := by
    rw [uint_natBits, Nat.mod_eq_of_lt (by omega)]
  rw [sint_eq_ite (natBits_length _ _), hval, if_neg (by omega)]
  omega

theorem intBits_nonneg {n : Nat} {k : Int} (h : 0 ≤ k) (hk : k < 2 ^ n) : intBits n k = some (natBits n k.toNat) := by
  rw [intBits, if_pos h, if_pos hk]

theorem uint_natBits_toNat {n : Nat} {k : Int} (h : 0 ≤ k) (hk : k < 2 ^ n) : (uint (natBits n k.toNat) : Int) = k := by
  have hlt : k.toNat < 2 ^ n := (Int.toNat_lt h).mpr (by exact_mod_cast hk)
  rw [uint_natBits, Nat.mod_eq_of_lt hlt, Int.toNat_of_nonneg h]

/-- Outside `-2^m` to `2^(m+1) - 1` no sequence of m + 1 bits stands for an integer (decision D13). -/
theorem intBits_out_of_range {m : Nat} {k : Int} (h : k < -2 ^ m ∨ 2 ^ (m + 1) ≤ k) : intBits (m + 1) k = none := by
  have hpos : (0 : Int) < 2 ^ m := by positivity
  have hpow : (2 : Int) ^ (m + 1) = 2 * 2 ^ m := pow_succ' 2 m
  unfold intBits
  split
  · exact if_neg (by omega)
  · exact if_neg (by omega)

theorem zext_length {n : Nat} {w : Bits} (h : w.length ≤ n) : (zext n w).length = n := by simp [zext, h]

theorem sext_length {n : Nat} {w : Bits} (h : w.length ≤ n) : (sext n w).length = n := by simp [sext, h]

@[simp] theorem uint_zext (n : Nat) (w : Bits) : uint (zext n w) = uint w := by
  simp [zext, uint_append, uint_replicate_false]

end Sys2Proof.Machine

namespace Sys2Proof.Proofs

open Sys2Proof Sys2Proof.Machine

/-- Settles O1: an n-bit sequence and its two readings determine each other, by comparison with half the range (`sint_eq_ite`). -/
theorem conversionsAreExactAndInvertible : Obligations.ConversionsAreExactAndInvertible := by
  intro n hn
  obtain ⟨m, rfl⟩ : ∃ m, n = m + 1 := ⟨n - 1, by omega⟩
  rw [Nat.add_sub_cancel]
  refine ⟨fun k h hk => ?_, fun k h hk => ?_, fun k hk => intBits_out_of_range hk, fun w hw => ?_⟩
  · exact ⟨_, intBits_nonneg h hk, natBits_length _ _, uint_natBits_toNat h hk⟩
  · exact ⟨_, intBits_neg h hk, natBits_length _ _, sint_natBits_neg h hk⟩
  · have hne : w ≠ [] := List.ne_nil_of_length_eq_add_one hw
    refine ⟨hw ▸ uint_lt w, (sint_range hw).1, (sint_range hw).2, intBits_uint hw, intBits_sint hw, fun j hj => ?_⟩
    exact ⟨zext_length (hw ▸ hj), uint_zext j w, sext_length (hw ▸ hj), sint_append_replicate_last hne _⟩

end Sys2Proof.Proofs
end

section
/-! SUPPORT. A call that decodes is the packing of its operation, and the settlement of the obligation on refused calls. -/

namespace Sys2Proof

@[simp] theorem Level.encode_setInput (X : Level) (c : Ref) (w a : Bits) (l : Bit) :
    encode (X.setInput c w a l) = packCall (.ram X) .setInput [c] [w, a] [l] := by cases X <;> rfl
@[simp] theorem Level.encode_recompute (X : Level) (c : Ref) :
    encode (X.recompute c) = packCall (.ram X) .setInput [c] [] [] := by cases X <;> rfl
@[simp] theorem Level.encode_getOutput (X : Level) (c : Ref) (a : Bits) :
    encode (X.getOutput c a) = packCall (.ram X) .getOutput [c] [a] [] := by cases X <;> rfl
@[simp] theorem Level.encode_onClock (X : Level) (c : Ref) (level : Bit) :
    encode (X.onClock c level) = packCall (.ram X) .onClock [c] [] [level] := by cases X <;> rfl
@[simp] theorem Level.encode_indexRead (X : Level) (c : Ref) (a : Bits) :
    encode (X.indexRead c a) = packCall (.ram X) .indexRead [c] [a] [] := by cases X <;> rfl
@[simp] theorem Level.encode_indexWrite (X : Level) (c : Ref) (a w : Bits) :
    encode (X.indexWrite c a w) = packCall (.ram X) .indexWrite [c] [w, a] [] := by cases X <;> rfl

section packed

variable {c : Call} {i : Instr} {f : Family} {op : OpName} (hf : c.family = f) (hop : c.op = op)
include hf hop

theorem encode_of_readNone {mk : Ref → Instr} (hmk : ∀ r, encode (mk r) = packCall f op [r] [] [])
    (h : readNone c mk = .ok i) : encode i = c := by
  obtain ⟨r, rfl, hc⟩ := readNone_ok h
  rw [hmk, hc, hf, hop]

theorem encode_of_readBit {mk : Ref → Bit → Instr} (hmk : ∀ r b, encode (mk r b) = packCall f op [r] [] [b])
    (h : readBit c mk = .ok i) : encode i = c := by
  obtain ⟨r, b, rfl, hc⟩ := readBit_ok h
  rw [hmk, hc, hf, hop]

theorem encode_of_readAddress {mk : Ref → Bits → Instr} (hmk : ∀ r a, encode (mk r a) = packCall f op [r] [a] [])
    (h : readAddress c mk = .ok i) : encode i = c := by
  obtain ⟨r, a, rfl, hc⟩ := readAddress_ok h
  rw [hmk, hc, hf, hop]

theorem encode_of_readClock {j : Instr} (hj : encode j = packCall f op [] [] []) (h : readClock c j = .ok i) :
    encode i = c := by
  obtain ⟨rfl, hc⟩ := readClock_ok h
  rw [hj, hc, hf, hop]

end packed

/-- A call that decodes is the encoding of what it decodes to. -/
theorem encode_of_decode {c : Call} {i : Instr} (h : decode c = .ok i) : encode i = c := by
  unfold decode at h
  split at h
  next hf hop =>
    split at h
    · exact encode_of_readNone hf hop (fun _ => rfl) h
    · exact encode_of_readBit hf hop (fun _ _ => rfl) h
  next hf hop => exact encode_of_readNone hf hop (fun _ => rfl) h
  next hf hop => exact encode_of_readBit hf hop (fun _ _ => rfl) h
  next hf hop =>
    split at h
    · exact encode_of_readNone hf hop (fun _ => rfl) h
    · obtain ⟨r, v, l, rfl, hc⟩ := readValueLoad_ok h
      rw [hc, hf, hop]; rfl
  next hf hop => exact encode_of_readNone hf hop (fun _ => rfl) h
  next hf hop => exact encode_of_readBit hf hop (fun _ _ => rfl) h
  next hf hop =>
    split at h
    · exact encode_of_readNone hf hop (fun _ => rfl) h
    · obtain ⟨r, w, l, rfl, hc⟩ := readBitsLoad_ok h
      rw [hc, hf, hop]; rfl
  next hf hop => exact encode_of_readNone hf hop (fun _ => rfl) h
  next hf hop => exact encode_of_readBit hf hop (fun _ _ => rfl) h
  next X hf hop =>
    split at h
    · exact encode_of_readNone hf hop (Level.encode_recompute X) h
    · obtain ⟨r, w, a, l, rfl, hc⟩ := readWordAddressLoad_ok h
      rw [hc, hf, hop, Level.encode_setInput]
  next X hf hop => exact encode_of_readAddress hf hop (Level.encode_getOutput X) h
  next X hf hop => exact encode_of_readBit hf hop (Level.encode_onClock X) h
  next X hf hop => exact encode_of_readAddress hf hop (Level.encode_indexRead X) h
  next X hf hop =>
    obtain ⟨r, a, w, rfl, hc⟩ := readAddressWord_ok h
    rw [hc, hf, hop, Level.encode_indexWrite]
  next hf hop =>
    split at h
    · exact encode_of_readNone hf hop (fun _ => rfl) h
    · obtain ⟨r, v, l, inc, rst, rfl, hc⟩ := readPcInputs_ok h
      rw [hc, hf, hop]; rfl
  next hf hop => exact encode_of_readNone hf hop (fun _ => rfl) h
  next hf hop => exact encode_of_readBit hf hop (fun _ _ => rfl) h
  next hf hop =>
    obtain ⟨rfl, hc⟩ := readSubscribe_ok h
    rw [hc, hf, hop]; rfl
  next hf hop => exact encode_of_readClock hf hop rfl h
  next hf hop => exact encode_of_readClock hf hop rfl h
  next => cases h

/-- The call of an operation holds Bits only, whatever the lengths of its operands (R14). -/
theorem encode_bits (i : Instr) : ∀ v ∈ (encode i).bundle, v < 2 := by
  cases i <;> exact Laws.packCall_bits _ _ _ _ _

/-- The decoder refuses what it does not read as an operation. -/
theorem exists_decode_error {c : Call} (h : ∀ i, decode c ≠ .ok i) : ∃ e, decode c = .error e := by
  cases hd : decode c with
  | error e => exact ⟨e, rfl⟩
  | ok i => exact absurd hd (h i)

/-- The lengths in a call that packs these operands. -/
theorem lengths_of_packCall {c : Call} {refs : List Ref} {seqs : List Bits} {bits : Bits}
    (h : c = packCall c.family c.op refs seqs bits) :
    c.lens.length = seqs.length ∧ c.bundle.length = c.lens.sum + bits.length := by
  rw [h]
  exact ⟨List.length_map _, Laws.packCall_length _ _ _ _ _⟩

/-- The lengths in a call that packs single Bits only. -/
theorem lengths_of_packCall_bits {c : Call} {refs : List Ref} {bits : Bits}
    (h : c = packCall c.family c.op refs [] bits) : c.lens.length = 0 ∧ c.bundle.length = bits.length := by
  rw [h]
  exact ⟨rfl, (Laws.packCall_length _ _ _ _ _).trans (Nat.zero_add _)⟩

end Sys2Proof

namespace Sys2Proof.Proofs

open Sys2Proof

/-- Settles O6: what decodes is the packing of its operands, which holds Bits only and all operands of its SET_INPUT. -/
theorem nonBitsAndPartialOperandsAreRefused : Obligations.NonBitsAndPartialOperandsAreRefused := by
  refine ⟨fun c v hv hlt => exists_decode_error fun i hi => ?_, fun c hop hsome => ?_⟩
  · have hbit := encode_bits i v (by rwa [encode_of_decode hi])
    omega
  · have hom : c.omitted = false := by simpa [Call.omitted] using hsome
    refine ⟨fun hf hl => ?_, fun hf hl => ?_, fun hf hl => ?_, fun X hf hl => ?_, fun hf hl => ?_⟩ <;>
      refine exists_decode_error fun i hi => hl ?_ <;>
      simp only [decode, hf, hop, hom, Bool.false_eq_true, if_false] at hi
    · obtain ⟨r, b, -, hc⟩ := readBit_ok hi
      exact lengths_of_packCall_bits hc
    · obtain ⟨r, v, l, -, hc⟩ := readValueLoad_ok hi
      exact lengths_of_packCall_bits hc
    · obtain ⟨r, w, l, -, hc⟩ := readBitsLoad_ok hi
      exact lengths_of_packCall hc
    · obtain ⟨r, w, a, l, -, hc⟩ := readWordAddressLoad_ok hi
      exact lengths_of_packCall hc
    · obtain ⟨r, v, l, inc, rst, -, hc⟩ := readPcInputs_ok hi
      exact lengths_of_packCall hc

end Sys2Proof.Proofs
end

section
/-! SUPPORT. What one step can do, and the settlement of the obligations on the topology and on a step without an operation. -/

namespace Sys2Proof.Machine

open Sys2Proof

theorem step_nil {s : State} (h : s.calls = []) : step s = .next s := by simp [step, h]

theorem step_cons_ok {s : State} {c : Call} {rest : List Call} {i : Instr} (h : s.calls = c :: rest)
    (hd : decode c = .ok i) : step s = exec i { s with calls := rest } := by simp [step, h, hd]

theorem step_cons_error {s : State} {c : Call} {rest : List Call} {e : Reject} (h : s.calls = c :: rest)
    (hd : decode c = .error e) : step s = .refused (.undecodable e) := by simp [step, h, hd]

/-- All a step can do: nothing with no call waiting, else perform the oldest call. -/
theorem step_next {s t : State} (h : step s = .next t) :
    (s.calls = [] ∧ t = s) ∨ ∃ i rest, Completes i { s with calls := rest } t := by
  cases hs : s.calls with
  | nil =>
    rw [step_nil hs] at h
    injection h with h
    exact .inl ⟨rfl, h.symm⟩
  | cons c rest =>
    cases hd : decode c with
    | error e => rw [step_cons_error hs hd] at h; cases h
    | ok i => exact .inr ⟨i, rest, exec_next (step_cons_ok hs hd ▸ h)⟩

/-- Replacing an entry by one with the same image leaves the images as they are. -/
theorem map_set_of_eq {α β : Type} {f : α → β} {l : List α} {k : Nat} {x y : α} (hk : l[k]? = some x) (h : f y = f x) :
    (l.set k y).map f = l.map f := by
  obtain ⟨hlt, rfl⟩ := List.getElem?_eq_some_iff.mp hk
  rw [List.map_set, h, ← List.getElem_map f (h := by simpa using hlt), List.set_getElem_self]

/-- A TICK keeps every kind (R3). -/
theorem tick_kinds (s : State) : s.tick.components.map Component.kind = s.components.map Component.kind := by
  apply List.ext_getElem?
  intro k
  rw [List.getElem?_map, List.getElem?_map, tick_component, Option.map_map]
  congr 1
  funext comp
  by_cases h : k ∈ s.clock.subscribers <;> simp [h]

/-- No operation changes the kinds of the components (R3). -/
theorem completes_kinds {i : Instr} {s t : State} (h : Completes i s t) :
    t.components.map Component.kind = s.components.map Component.kind := by
  cases h with
  | read | raised | subscribed | counted => rfl
  | wrote c comp hc hp hk hf hs hr => exact map_set_of_eq hk (act_kind hf)
  | ticked hi => exact tick_kinds s

end Sys2Proof.Machine

namespace Sys2Proof.Proofs

open Sys2Proof Sys2Proof.Machine

/-- Settles O13: a step is the completion of one operation, and each kind of completion keeps the kinds. -/
theorem stepKeepsTheTopology : Obligations.StepKeepsTheTopology := by
  intro s t h
  obtain ⟨-, rfl⟩ | ⟨i, rest, hc⟩ := step_next h
  · rfl
  · exact (completes_kinds hc :)

/-- Settles O9: the first and the last case of `step`. -/
theorem stepWithoutAnOperationChangesNothing : Obligations.StepWithoutAnOperationChangesNothing :=
  ⟨fun _ => step_nil, fun _ _ _ _ => step_cons_error⟩

end Sys2Proof.Proofs
end

section
/-! SUPPORT. An ON_CLOCK that is no rising edge commits nothing (R19, R104, R228), and the settlement of that obligation. -/

namespace Sys2Proof.Machine

open Sys2Proof

/-! ### The component -/

@[simp] theorem onClock_levelIs (comp : Component) (level : Bit) : (comp.onClock level).levelIs level = true := by
  cases comp with
  | cell c => simp [Component.onClock, Component.levelIs, Cell.onClock]
  | bit b => simp [Component.onClock, Component.levelIs]
  | reg r => simp [Component.onClock, Component.levelIs, Register.onClock]
  | ram m => simp [Component.onClock, Component.levelIs, Ram.onClock]
  | pc p =>
    simp only [Component.onClock, Component.levelIs, List.all_eq_true, beq_iff_eq]
    exact p.onClock_prev level

theorem not_rising {prev level : Bit} (h : level = false ∨ prev = true) : rising prev level = false := by
  rcases h with rfl | rfl <;> simp [rising]

/-- An ON_CLOCK that is no rising edge for the Cells of a component leaves its committed value (R19, R104). -/
theorem onClock_visible_hold {comp : Component} {level : Bit} (hw : comp.wf = true)
    (h : level = false ∨ comp.levelIs true = true) : (comp.onClock level).visible = comp.visible := by
  cases comp with
  | cell c => simp [Component.onClock, Component.visible, Cell.onClock, not_rising (h.imp_right beq_iff_eq.mp)]
  | bit b =>
    simp [Component.onClock, Component.visible, LoadableBit.onClock_output, not_rising (h.imp_right beq_iff_eq.mp)]
  | reg r =>
    simp only [Component.levelIs, List.all_eq_true, beq_iff_eq] at h
    simp [Component.onClock, Component.visible, r.onClock_output_hold level h]
  | ram m => simp [Component.onClock, Component.visible, Ram.onClock, not_rising (h.imp_right beq_iff_eq.mp)]
  | pc p =>
    simp only [Component.wf, Bool.and_eq_true, beq_iff_eq] at hw
    simp only [Component.levelIs, List.all_eq_true, beq_iff_eq] at h
    simp [Component.onClock, Component.visible, p.onClock_output_hold level hw.1.le h]

/-- Whether an operation belongs to a component depends on the component's kind only. -/
theorem fits_congr {comp comp' : Component} (i : Instr) (h : comp'.kind = comp.kind) : i.fits comp' = i.fits comp := by
  cases comp <;> cases comp' <;> simp only [Component.kind, reduceCtorEq, Kind.reg.injEq, Kind.ram.injEq] at h <;>
    cases i <;> simp [Instr.fits, h]

/-! ### The operation -/

theorem refs_of_onClockOf {i : Instr} {c : Ref} {level : Bit} (h : i.onClockOf = some (c, level)) : i.refs = [c] := by
  cases i <;> simp_all [Instr.onClockOf, Instr.refs]

theorem reads_of_onClockOf {i : Instr} {x : Ref × Bit} (h : i.onClockOf = some x) : i.reads = false := by
  cases i <;> simp_all [Instr.onClockOf, Instr.reads]

theorem checked_of_onClockOf {i : Instr} {x : Ref × Bit} (h : i.onClockOf = some x) : i.checked = false := by
  cases i <;> simp_all [Instr.onClockOf, Instr.checked]

theorem ramOnClock_eq {X : Level} {c : Ref} {s : State} {m : Ram} (level : Bit) (hl : s.lookup c = .ok (.ram m))
    (hX : m.level = X) : ramOnClock X c level s = .next (s.put c.top (.ram (m.onClock level))) := by
  subst hX
  exact onRam_eq _ hl

/-- An ON_CLOCK on a component of its kind completes, and clocks it. -/
theorem exec_onClock {i : Instr} {c : Ref} {level : Bit} {s : State} {comp : Component}
    (hi : i.onClockOf = some (c, level)) (hl : s.lookup c = .ok comp) (hf : i.fits comp = true) :
    exec i s = .next (s.put c.top (comp.onClock level)) := by
  cases i <;> simp only [Instr.onClockOf, Option.some.injEq, Prod.mk.injEq, reduceCtorEq] at hi <;>
    obtain ⟨rfl, rfl⟩ := hi <;> cases comp <;> simp only [Instr.fits, beq_iff_eq, Bool.false_eq_true] at hf
  case cellOnClock => exact onCell_eq _ hl
  case bitOnClock => exact onBit_eq _ hl
  case regOnClock => exact onReg_eq _ hl
  case pcOnClock => exact onPc_eq _ hl
  all_goals exact ramOnClock_eq _ hl hf

/-- All an ON_CLOCK can do. -/
theorem exec_onClock_next {i : Instr} {k : Nat} {level : Bit} {s t : State} (hi : i.onClockOf = some (.ofTop k, level))
    (h : exec i s = .next t) :
    ∃ comp, s.components[k]? = some comp ∧ i.fits comp = true ∧ t = s.put k (comp.onClock level) := by
  have hrefs := refs_of_onClockOf hi
  cases exec_next h with
  | read c comp r hc hp hk hf hr => rw [reads_of_onClockOf hi] at hr; cases hr
  | raised c e a hc hp hck => rw [checked_of_onClockOf hi] at hck; cases hck
  | wrote c comp hc hp hk hf hs hr =>
    obtain rfl : Ref.ofTop k = c := by simpa [hrefs] using hc
    exact ⟨comp, hk, hf, by rw [act_onClock hi hf]⟩
  | subscribed cs ks hj => subst hj; cases hi
  | ticked hj => subst hj; cases hi
  | counted hj => subst hj; cases hi

/-! ### The outputs -/

theorem put_outputs {s : State} {k : Nat} {comp comp' : Component} (hk : s.components[k]? = some comp)
    (h : comp'.visible = comp.visible) : (s.put k comp').outputs = s.outputs := map_set_of_eq hk h

theorem put_getElem? {s : State} {k : Nat} {comp : Component} (comp' : Component) (hk : s.components[k]? = some comp) :
    (s.put k comp').components[k]? = some comp' := by
  obtain ⟨hlt, -⟩ := List.getElem?_eq_some_iff.mp hk
  simp [hlt]

theorem wf_component {s : State} {k : Nat} {comp : Component} (hw : s.wf = true) (hk : s.components[k]? = some comp) :
    comp.wf = true := by
  simp only [State.wf, Bool.and_eq_true, List.all_eq_true] at hw
  exact hw.1 comp (List.mem_of_getElem? hk)

end Sys2Proof.Machine

namespace Sys2Proof.Proofs

open Sys2Proof Sys2Proof.Machine

/-- Settles O50: the ON_CLOCK replaces its component, whose committed value stays when the call is no rising edge; after an
ON_CLOCK with level 1 a second one is none. -/
theorem storedValuesChangeOnlyOnARisingEdge : Obligations.StoredValuesChangeOnlyOnARisingEdge := by
  intro i k level s t hw hi h
  obtain ⟨comp, hk, hf, rfl⟩ := exec_onClock_next hi h
  have hcw := wf_component hw hk
  refine ⟨fun hl => ?_, fun comp' hk' hlev => ?_, fun hl => ?_⟩
  · exact put_outputs hk (onClock_visible_hold hcw (.inl hl))
  · obtain rfl : comp = comp' := Option.some.inj (hk.symm.trans hk')
    exact put_outputs hk (onClock_visible_hold hcw (.inr hlev))
  · subst hl
    have hk' := put_getElem? (comp.onClock true) hk
    have hf' : i.fits (comp.onClock true) = true := (fits_congr i (onClock_kind comp true)).trans hf
    have hsame := onClock_visible_hold (level := true) (onClock_wf hcw true) (.inr (onClock_levelIs comp true))
    exact ⟨_, exec_onClock hi (lookup_ofTop hk') hf', put_outputs hk' hsame⟩

end Sys2Proof.Proofs
end

section
/-! SUPPORT. The invariant of the machine under every way an operation completes and at construction, and the settlement of the two
obligations on it. -/

namespace Sys2Proof.Machine

open Sys2Proof

theorem State.wf_iff {s : State} : s.wf = true ↔
    (∀ comp ∈ s.components, comp.wf = true) ∧ ∀ k ∈ s.clock.subscribers, k < s.components.length := by
  simp [State.wf]

/-! ### What every operation keeps -/

/-- What a SUBSCRIBE appends are numbers of components (R180). -/
theorem subscriberNumbers_lt {s : State} {cs : List Ref} {ks : List Nat} (h : subscriberNumbers s cs = .ok ks) :
    ∀ k ∈ ks, k < s.components.length := by
  induction cs generalizing ks with
  | nil =>
    obtain rfl : [] = ks := by simpa [subscriberNumbers] using h
    simp
  | cons c cs ih =>
    unfold subscriberNumbers at h
    split at h
    next comp ks' hl hks =>
      obtain rfl : c.top :: ks' = ks := by simpa using h
      obtain ⟨hlt, -⟩ := List.getElem?_eq_some_iff.mp (lookup_eq_ok.mp hl).2
      exact List.forall_mem_cons.mpr ⟨hlt, ih hks⟩
    · cases h
    · cases h

/-- The invariant speaks of the components and the Clock only, not of the caller's side. -/
theorem wf_answer {s : State} (hw : s.wf = true) (r : Reply) : (s.answer r).wf = true := hw

theorem wf_put {s : State} {comp : Component} (hw : s.wf = true) (k : Nat) (hc : comp.wf = true) :
    (s.put k comp).wf = true := by
  obtain ⟨hcomps, hsubs⟩ := State.wf_iff.mp hw
  refine State.wf_iff.mpr ⟨fun x hx => ?_, by simpa using hsubs⟩
  rcases List.mem_or_eq_of_mem_set hx with hx | rfl
  · exact hcomps x hx
  · exact hc

theorem wf_tick {s : State} (hw : s.wf = true) : s.tick.wf = true := by
  obtain ⟨hcomps, hsubs⟩ := State.wf_iff.mp hw
  exact State.wf_iff.mpr ⟨tick_forall s (fun _ level h => onClock_wf h level) hcomps, by simpa using hsubs⟩

/-- Every operation keeps the invariant. -/
theorem completes_wf {i : Instr} {s t : State} (h : Completes i s t) (hw : s.wf = true) : t.wf = true := by
  cases h with
  | read | raised | counted => exact wf_answer hw _
  | wrote c comp hc hp hk hf hs hr => exact wf_put hw _ (act_wf hf hs (wf_component hw hk))
  | subscribed cs ks hi hks =>
    obtain ⟨hcomps, hsubs⟩ := State.wf_iff.mp hw
    have hnew : ∀ k ∈ ks, k < s.components.length := subscriberNumbers_lt hks
    exact State.wf_iff.mpr ⟨hcomps, List.forall_mem_append.mpr ⟨hsubs, hnew⟩⟩
  | ticked hi => exact wf_answer (wf_tick hw) _

/-! ### Construction -/

@[simp] theorem Register.init_width (n : Nat) : (Register.init n).width = n := List.length_replicate

theorem Register.init_uniform (n : Nat) : (Register.init n).uniform = true := by
  apply Register.uniform_of (load := false) (prev := false)
  intro b hb
  rw [List.eq_of_mem_replicate hb]
  decide

/-- A component of any kind but the Register of width 0 meets the invariant at construction. -/
theorem Component.init_wf {K : Kind} (h : K ≠ .reg 0) : (Component.init K).wf = true := by
  cases K with
  | cell => rfl
  | bit => rfl
  | reg n => simpa [Component.init, Component.wf, Register.init_uniform] using h
  | ram X => simp [Component.init, Component.wf, Ram.init, Memory.within]
  | pc => simp [Component.init, Component.wf, Pc.init, Register.init_uniform]

theorem construct_wf {kinds : List Kind} {s : State} (h : construct kinds = .ok s) : s.wf = true := by
  unfold construct at h
  split at h
  · cases h
  next hz =>
    injection h with h
    subst h
    refine State.wf_iff.mpr ⟨fun comp hc => ?_, by simp [Clock.init]⟩
    obtain ⟨K, hK, rfl⟩ := List.mem_map.mp hc
    exact Component.init_wf fun h0 => hz (h0 ▸ hK)

/-- The machine at reset is what construction of the standard system gives (log 2). -/
theorem construct_standardSystem : construct standardSystem = .ok State.reset := rfl

end Sys2Proof.Machine

namespace Sys2Proof.Proofs

open Sys2Proof Sys2Proof.Machine

/-- Settles O12: a step is the completion of one operation, and each kind of completion keeps the invariant. -/
theorem stepKeepsTheInvariant : Obligations.StepKeepsTheInvariant := by
  intro s t hw h
  obtain ⟨-, rfl⟩ | ⟨i, rest, hc⟩ := step_next h
  · exact hw
  · exact completes_wf hc hw

/-- Settles O11: whatever is constructed meets the invariant, and the machine at reset is constructed. -/
theorem constructionMeetsTheInvariant : Obligations.ConstructionMeetsTheInvariant :=
  ⟨construct_wf construct_standardSystem, fun _ _ => construct_wf⟩

end Sys2Proof.Proofs
end

section
/-! SUPPORT. The selector of a RAM address names a child, and the settlement of the obligation on load lines. -/

namespace Sys2Proof.Machine

open Sys2Proof

/-- The selector of an address of A bits is the number of a child (R83). -/
theorem uint_addrSel_lt_fanOut {X : Level} {address : Bits} (h : address.length = X.addrWidth) :
    uint (addrSel X.subWidth address) < X.fanOut := by
  have hlen : (addrSel X.subWidth address).length = X.selWidth := by
    rw [addrSel, List.length_drop, h, Level.addrWidth_split X, Nat.add_sub_cancel]
  rw [Level.fanOut_eq X, ← hlen]
  exact uint_lt _

theorem dmuxLine_eq_true {load : Bit} {sel : Bits} {k : Nat} :
    dmuxLine load sel k = true ↔ load = true ∧ k = uint sel := by
  simp [dmuxLine, eq_comm (a := k)]

/-- A selector below F asserts one of the F lines if the input is 1, and none if it is 0 (R18). -/
theorem dmux_count_true {F : Nat} {sel : Bits} (load : Bit) (h : uint sel < F) :
    (dmux F load sel).count true = if load then 1 else 0 := by
  cases load with
  | false => simp [dmux, dmuxLine, List.count_eq_zero]
  | true =>
    have hline : (fun k => dmuxLine true sel k == true) = (· == uint sel) := by
      funext k
      simp [dmuxLine, Bool.beq_comm]
    calc (dmux F true sel).count true
      _ = (List.range F).count (uint sel) := by
          rw [dmux, List.count, List.countP_map]
          exact congrArg (List.countP · _) hline
      _ = 1 := List.count_eq_one_of_mem List.nodup_range (List.mem_range.mpr h)

end Sys2Proof.Machine

namespace Sys2Proof.Proofs

open Sys2Proof Sys2Proof.Machine

/-- Settles O2: the selector is below the fan-out, so exactly one line of `dmux` bears its number. -/
theorem atMostOneChildIsLoaded : Obligations.AtMostOneChildIsLoaded := by
  intro X address load h
  have hsel := uint_addrSel_lt_fanOut h
  refine ⟨dmux_length _ _ _, dmux_count_true load hsel, fun k => ?_⟩
  rw [dmux_getElem?, ← dmuxLine_eq_true]
  split
  · exact Option.some_inj
  next hk =>
    refine iff_of_false (by simp) fun hline => hk ?_
    rw [(dmuxLine_eq_true.mp hline).2]
    exact hsel

end Sys2Proof.Proofs
end

section
/-! SUPPORT. The flat view after each operation of a Register and of a Program Counter, and the settlement of the obligation on
flat views. -/

namespace Sys2Proof.Machine

open Sys2Proof

/-! ### N-bit Register -/

section Register

variable {r : Register}

/-- The shared load is the load that all bits of the Register have (R36). -/
theorem Register.sharedLoad_eq {load : Bit} (h0 : r.width ≠ 0) (h : ∀ b ∈ r.bits, b.recLoad = load) :
    r.sharedLoad = load := by
  obtain ⟨bs⟩ := r
  cases bs with
  | nil => exact absurd rfl h0
  | cons b bs => exact h b List.mem_cons_self

/-- The shared clock level is the level that all bits of the Register have seen (R48). -/
theorem Register.sharedPrev_eq {level : Bit} (h0 : r.width ≠ 0) (h : ∀ b ∈ r.bits, b.cell.prev = level) :
    r.sharedPrev = level := by
  obtain ⟨bs⟩ := r
  cases bs with
  | nil => exact absurd rfl h0
  | cons b bs => exact h b List.mem_cons_self

theorem Register.setInput_sharedPrev {bits : Bits} (l : Bit) (h : r.width ≤ bits.length) :
    (r.setInput bits l).sharedPrev = r.sharedPrev := by
  rw [Register.sharedPrev, r.setInput_prevs bits l h, Register.sharedPrev]

theorem Register.onClock_sharedPrev (level : Bit) (h0 : r.width ≠ 0) : (r.onClock level).sharedPrev = level :=
  Register.sharedPrev_eq (by simpa using h0) fun b hb => by
    obtain ⟨x, -, rfl⟩ := List.mem_map.mp hb
    exact x.onClock_prev level

/-- SET_INPUT on a Register is `set_input` of its flat view (R119). -/
theorem Register.setInput_flat {bits : Bits} (l : Bit) (h0 : r.width ≠ 0) (h : bits.length = r.width) :
    (r.setInput bits l).flat = r.flat.setInput bits l := by
  have hload : (r.setInput bits l).sharedLoad = l :=
    Register.sharedLoad_eq (by rwa [r.setInput_width bits l h.ge]) fun x hx => by
      obtain ⟨b, -, v, rfl⟩ := r.mem_setInput bits l hx
      exact b.setInput_recLoad v l
  simp [Register.flat, FlatReg.setInput, r.setInput_recValues bits l h, hload, r.setInput_output bits l h.ge,
    Register.setInput_sharedPrev l h.ge]

/-- RECOMPUTE on a Register changes nothing in its flat view (R119). -/
theorem Register.recompute_flat : r.recompute.flat = r.flat := by
  simp [Register.flat, Register.sharedLoad, Register.sharedPrev, Register.recompute, Register.output, Function.comp_def]

/-- ON_CLOCK on a uniform Register is `on_clock` of its flat view (R119). -/
theorem Register.onClock_flat (level : Bit) (h0 : r.width ≠ 0) (hu : r.uniform = true) :
    (r.onClock level).flat = r.flat.onClock level := by
  have hbits := r.uniform_iff.mp hu
  have hvalue := r.onClock_output r.sharedLoad level fun b hb => (hbits b hb).2
  have hrec : (r.onClock level).bits.map LoadableBit.recValue = r.bits.map LoadableBit.recValue := by
    simp [Register.onClock, Function.comp_def]
  have hload : (r.onClock level).sharedLoad = r.sharedLoad := by
    simp [Register.sharedLoad, Register.onClock, Function.comp_def]
  simp [Register.flat, FlatReg.onClock, hrec, hload, hvalue, Register.onClock_sharedPrev level h0]

end Register

/-! ### Program Counter -/

section Pc

variable {p : Pc}

/-- Driving changes nothing in the flat view (R161, R170). -/
theorem Pc.drive_flat (h : p.reg.width = 16) : p.drive.flat = p.flat := by
  have hprev : p.drive.reg.sharedPrev = p.reg.sharedPrev := Register.setInput_sharedPrev _ (by simp [h])
  simp only [Pc.flat, Pc.value, p.drive_output h.le, hprev]
  rfl

/-- SET_INPUT on a Program Counter is `set_input` of its flat view (R170). -/
theorem Pc.setInput_flat (v : Bits) (l inc rst : Bit) (h : p.reg.width = 16) :
    (p.setInput v l inc rst).flat = p.flat.setInput (wordOfBits v) l inc rst := Pc.drive_flat h

/-- ON_CLOCK on a Program Counter with a uniform Register is `on_clock` of its flat view (R170). -/
theorem Pc.onClock_flat (level : Bit) (h : p.reg.width = 16) (hu : p.reg.uniform = true) :
    (p.onClock level).flat = p.flat.onClock level := by
  have hvalue := p.onClock_value level h fun b hb => (p.reg.uniform_iff.mp hu b hb).2.2
  have hprev : (p.onClock level).reg.sharedPrev = level :=
    Register.sharedPrev_eq (by simp [p.onClock_width level h.le, h]) (p.onClock_prev level)
  simp only [Pc.flat, hvalue, hprev]
  rfl

end Pc

end Sys2Proof.Machine

namespace Sys2Proof.Proofs

open Sys2Proof Sys2Proof.Machine

/-- Settles O26: each operation commutes with the flat view of its component. -/
theorem flatViewsAgree : Obligations.FlatViewsAgree := by
  refine ⟨fun b v l level => ⟨rfl, rfl, rfl, b.onClock_flat level⟩, fun r bits l level hw hlen => ?_,
    fun p v l inc rst level hw => ?_⟩
  · simp only [Component.wf, Bool.and_eq_true, bne_iff_ne] at hw
    obtain ⟨h0, hu⟩ := hw
    exact ⟨Register.setInput_flat l h0 hlen, Register.recompute_flat, rfl, Register.onClock_flat level h0 hu⟩
  · simp only [Component.wf, Bool.and_eq_true, beq_iff_eq] at hw
    obtain ⟨h16, hu⟩ := hw
    have hread : bitsOfWord p.value = p.reg.output := bitsOfWord_wordOfBits (p.reg.output_length.trans h16)
    exact ⟨Pc.setInput_flat v l inc rst h16, Pc.drive_flat h16, hread.symm, Pc.onClock_flat level h16 hu⟩

end Sys2Proof.Proofs
end

section
/-! SUPPORT. An operation of a component does not read the Clock, CLOCK.SUBSCRIBE and CLOCK.TICK do not read the tick count, and
the settlement of the obligation on the tick count. -/

namespace Sys2Proof.Machine

open Sys2Proof

/-- The state with another Clock. -/
def State.withClock (s : State) (clk : Clock) : State := { s with clock := clk }

/-- The outcome with another Clock in the next state, if there is one. -/
def Result.withClock (clk : Clock) : Result → Result
  | .next t => .next (t.withClock clk)
  | .fault r => .fault r
  | .refused r => .refused r

@[simp] theorem lookup_withClock (s : State) (clk : Clock) (c : Ref) : (s.withClock clk).lookup c = s.lookup c :=
  lookup_congr rfl c

section component

variable {s : State} {clk : Clock} {c : Ref}

theorem checkShape_withClock {e a : Nat} {ok ok' : Result} (h : ok' = Result.withClock clk ok) :
    checkShape e a (s.withClock clk) ok' = Result.withClock clk (checkShape e a s ok) := by
  by_cases hl : a = e
  · rw [checkShape_ok _ _ hl, checkShape_ok _ _ hl, h]
  · rw [checkShape_bad _ _ hl, checkShape_bad _ _ hl]
    rfl

theorem onCell_withClock {f f' : Cell → Result} (h : ∀ x, f' x = Result.withClock clk (f x)) :
    onCell c (s.withClock clk) f' = Result.withClock clk (onCell c s f) := by
  simp only [onCell, lookup_withClock]
  split
  · exact h _
  · rfl
  · rfl

theorem onBit_withClock {f f' : LoadableBit → Result} (h : ∀ x, f' x = Result.withClock clk (f x)) :
    onBit c (s.withClock clk) f' = Result.withClock clk (onBit c s f) := by
  simp only [onBit, lookup_withClock]
  split
  · exact h _
  · rfl
  · rfl

theorem onReg_withClock {f f' : Register → Result} (h : ∀ x, f' x = Result.withClock clk (f x)) :
    onReg c (s.withClock clk) f' = Result.withClock clk (onReg c s f) := by
  simp only [onReg, lookup_withClock]
  split
  · exact h _
  · rfl
  · rfl

theorem onRam_withClock {X : Level} {f f' : Ram → Result} (h : ∀ x, f' x = Result.withClock clk (f x)) :
    onRam X c (s.withClock clk) f' = Result.withClock clk (onRam X c s f) := by
  simp only [onRam, lookup_withClock]
  split
  · split
    · exact h _
    · rfl
  · rfl
  · rfl

theorem onPc_withClock {f f' : Pc → Result} (h : ∀ x, f' x = Result.withClock clk (f x)) :
    onPc c (s.withClock clk) f' = Result.withClock clk (onPc c s f) := by
  simp only [onPc, lookup_withClock]
  split
  · exact h _
  · rfl
  · rfl

theorem ramSetInput_withClock {X : Level} {word address : Bits} {load : Bit} :
    ramSetInput X c word address load (s.withClock clk) = Result.withClock clk (ramSetInput X c word address load s) :=
  onRam_withClock fun _ => checkShape_withClock (checkShape_withClock rfl)

theorem ramRecompute_withClock {X : Level} :
    ramRecompute X c (s.withClock clk) = Result.withClock clk (ramRecompute X c s) := onRam_withClock fun _ => rfl

theorem ramGetOutput_withClock {X : Level} {address : Bits} :
    ramGetOutput X c address (s.withClock clk) = Result.withClock clk (ramGetOutput X c address s) :=
  onRam_withClock fun _ => checkShape_withClock rfl

theorem ramOnClock_withClock {X : Level} {level : Bit} :
    ramOnClock X c level (s.withClock clk) = Result.withClock clk (ramOnClock X c level s) := onRam_withClock fun _ => rfl

end component

/-- An operation of a component does the same under another Clock, and leaves that Clock (R43). -/
theorem exec_withClock {i : Instr} (s : State) (clk : Clock) (hs : ∀ cs, i ≠ .clockSubscribe cs) (ht : i ≠ .clockTick)
    (he : i ≠ .clockElapsedTicks) : exec i (s.withClock clk) = Result.withClock clk (exec i s) := by
  cases i
  case clockSubscribe cs => exact absurd rfl (hs cs)
  case clockTick => exact absurd rfl ht
  case clockElapsedTicks => exact absurd rfl he
  case regSetInput => exact onReg_withClock fun _ => checkShape_withClock rfl
  case pcSetInput => exact onPc_withClock fun _ => checkShape_withClock rfl
  case cellSetInput | cellRecompute | cellGetOutput | cellOnClock => exact onCell_withClock fun _ => rfl
  case bitSetInput | bitRecompute | bitGetOutput | bitOnClock => exact onBit_withClock fun _ => rfl
  case regRecompute | regGetOutput | regOnClock => exact onReg_withClock fun _ => rfl
  case pcRecompute | pcGetOutput | pcOnClock => exact onPc_withClock fun _ => rfl
  case ram8SetInput | ram64SetInput | ram512SetInput | ram4kSetInput | ram16kSetInput => exact ramSetInput_withClock
  case ram8IndexWrite | ram64IndexWrite | ram512IndexWrite | ram4kIndexWrite | ram16kIndexWrite =>
    exact ramSetInput_withClock
  case ram8Recompute | ram64Recompute | ram512Recompute | ram4kRecompute | ram16kRecompute => exact ramRecompute_withClock
  case ram8GetOutput | ram64GetOutput | ram512GetOutput | ram4kGetOutput | ram16kGetOutput => exact ramGetOutput_withClock
  case ram8IndexRead | ram64IndexRead | ram512IndexRead | ram4kIndexRead | ram16kIndexRead => exact ramGetOutput_withClock
  case ram8OnClock | ram64OnClock | ram512OnClock | ram4kOnClock | ram16kOnClock => exact ramOnClock_withClock

/-- An operation of a component leaves the Clock. -/
theorem clock_of_exec {i : Instr} {s t : State} (hs : ∀ cs, i ≠ .clockSubscribe cs) (ht : i ≠ .clockTick)
    (he : i ≠ .clockElapsedTicks) (h : exec i s = .next t) : t.clock = s.clock := by
  have hself : exec i s = Result.withClock s.clock (exec i s) := exec_withClock s s.clock hs ht he
  rw [h] at hself
  injection hself with hself
  rw [hself]
  rfl

@[simp] theorem subscriberNumbers_withClock (s : State) (clk : Clock) (cs : List Ref) :
    subscriberNumbers (s.withClock clk) cs = subscriberNumbers s cs := by
  induction cs with
  | nil => rfl
  | cons c cs ih => simp only [subscriberNumbers, lookup_withClock, ih]

/-- The Clock after an operation that made `t` of `s`, had the count been n before it. -/
def recount (n : Nat) (s t : State) : Clock :=
  ⟨n + (t.clock.elapsedTicks - s.clock.elapsedTicks), t.clock.subscribers⟩

theorem recount_of_clock_eq {n : Nat} {s t : State} (h : t.clock = s.clock) : recount n s t = ⟨n, s.clock.subscribers⟩ := by
  simp [recount, h]

/-- What an operation does under another tick count, by what it does under this one (R43). -/
theorem exec_recount {i : Instr} (s : State) (n : Nat) (he : i ≠ .clockElapsedTicks) :
    (∀ t, exec i s = .next t → exec i (s.withClock ⟨n, s.clock.subscribers⟩) = .next (t.withClock (recount n s t))) ∧
    ∀ r, exec i s = .refused r → exec i (s.withClock ⟨n, s.clock.subscribers⟩) = .refused r := by
  by_cases ht : i = .clockTick
  · subst ht
    refine ⟨fun t h => ?_, fun _ h => nomatch h⟩
    injection h with h
    subst h
    simp [exec, execClockTick, recount, State.withClock, State.tick, State.answer]
  by_cases hs : ∃ cs, i = .clockSubscribe cs
  · obtain ⟨cs, rfl⟩ := hs
    simp only [exec, execClockSubscribe, subscriberNumbers_withClock]
    cases subscriberNumbers s cs with
    | error e => exact ⟨fun _ h => (nomatch h), fun _ h => h⟩
    | ok ks =>
      refine ⟨fun t h => ?_, fun _ h => nomatch h⟩
      injection h with h
      subst h
      simp [recount, State.withClock]
  have hs' : ∀ cs, i ≠ .clockSubscribe cs := not_exists.mp hs
  rw [exec_withClock s _ hs' ht he]
  refine ⟨fun t h => ?_, fun r h => ?_⟩
  · rw [h, recount_of_clock_eq (clock_of_exec hs' ht he h)]
    rfl
  · rw [h]
    rfl

end Sys2Proof.Machine

namespace Sys2Proof.Proofs

open Sys2Proof Sys2Proof.Machine

/-- Settles O48: no operation of a component reads the Clock, CLOCK.SUBSCRIBE keeps the count and CLOCK.TICK adds 1 to it. -/
theorem tickCountIsUsedByNoOperation : Obligations.TickCountIsUsedByNoOperation :=
  fun _ s n he => exec_recount s n he

end Sys2Proof.Proofs
end

section
/-! SUPPORT. What every completed operation leaves as it was, and the settlement of the obligations on the frame and on the order of
operations. -/

namespace Sys2Proof.Machine

open Sys2Proof

/-- The name of a top-level component is its number. -/
theorem ofTop_top {c : Ref} (h : c.path = []) : Ref.ofTop c.top = c := by
  cases c
  cases h
  rfl

section frame

variable {i : Instr} {s t : State}

/-- The calls still waiting are no operation's to change (log 1). -/
theorem completes_calls (h : Completes i s t) : t.calls = s.calls := by
  cases h <;> rfl

/-- Only CLOCK.TICK reaches a component that the operation does not name (R215). -/
theorem completes_component (h : Completes i s t) (ht : i ≠ .clockTick) {k : Nat} (hk : Ref.ofTop k ∉ i.refs) :
    t.components[k]? = s.components[k]? := by
  cases h with
  | read | raised | subscribed | counted => rfl
  | wrote c comp hc hp =>
    have hne : c.top ≠ k := by
      rintro rfl
      exact hk (by simp [hc, ofTop_top hp])
    exact List.getElem?_set_ne hne
  | ticked hi => exact absurd hi ht

/-- Only CLOCK.TICK and CLOCK.SUBSCRIBE write the Clock (R215). -/
theorem completes_clock (h : Completes i s t) (ht : i ≠ .clockTick) (hs : ∀ cs, i ≠ .clockSubscribe cs) :
    t.clock = s.clock := by
  cases h with
  | read | raised | wrote | counted => rfl
  | subscribed cs ks hi => exact absurd hi (hs cs)
  | ticked hi => exact absurd hi ht

/-- A read returns a value or the condition, and writes nothing else (R68). -/
theorem completes_of_reads (h : Completes i s t) (hr : i.reads = true) : t = s.answer t.reply := by
  cases h with
  | read | raised | counted => rfl
  | wrote c comp hc hp hk hf hs hw => rw [hw] at hr; cases hr
  | subscribed cs ks hi => subst hi; cases hr
  | ticked hi => subst hi; cases hr

end frame

end Sys2Proof.Machine

namespace Sys2Proof.Proofs

open Sys2Proof Sys2Proof.Machine

/-- Settles O55: each of its four parts holds of every way an operation completes. -/
theorem operationsTouchOnlyWhatTheyName : Obligations.OperationsTouchOnlyWhatTheyName := by
  intro i s t h
  have hc := exec_next h
  exact ⟨completes_calls hc, fun _ ht hk => completes_component hc ht hk, completes_clock hc, completes_of_reads hc⟩

/-- Settles O8: the case of `step` in which the oldest call decodes. -/
theorem stepPerformsTheOldestCall : Obligations.StepPerformsTheOldestCall :=
  fun _ _ _ _ => step_cons_ok

end Sys2Proof.Proofs
end

section
/-! SUPPORT. A second SET_INPUT replaces the inputs that the first recorded, kind by kind, and the settlement of the obligation on
recorded inputs. -/

namespace Sys2Proof.Machine

open Sys2Proof

/-! ### The components -/

@[simp] theorem Cell.setInput_setInput (x : Cell) (d d' : Bit) : (x.setInput d).setInput d' = x.setInput d' := rfl

@[simp] theorem Ram.setInput_setInput (m : Ram) (w a w' a' : Bits) (l l' : Bit) :
    (m.setInput w a l).setInput w' a' l' = m.setInput w' a' l' := rfl

/-- The Register is driven from the committed count, which the first SET_INPUT left (R161, R162). -/
theorem Pc.setInput_setInput {p : Pc} (h : p.reg.width ≤ 16) (v v' : Bits) (l i r l' i' r' : Bit) :
    (p.setInput v l i r).setInput v' l' i' r' = p.setInput v' l' i' r' := by
  have hout : (p.setInput v l i r).reg.output = p.reg.output := Pc.drive_output _ h
  simp only [Pc.setInput, Pc.drive, Pc.next, Pc.value] at hout ⊢
  rw [hout, Register.setInput_setInput]
  simp

/-! ### The state after a first operation -/

section state

variable {s : State} {c : Ref} {comp : Component}

@[simp] theorem State.put_put (s : State) (k : Nat) (comp comp' : Component) :
    (s.put k comp).put k comp' = s.put k comp' := by simp [State.put]

@[simp] theorem State.answer_put (s : State) (r : Reply) (k : Nat) (comp : Component) :
    (s.answer r).put k comp = s.put k comp := rfl

@[simp] theorem lookup_answer (s : State) (r : Reply) (c : Ref) : (s.answer r).lookup c = s.lookup c := lookup_congr rfl c

theorem lookup_put (hl : s.lookup c = .ok comp) (comp' : Component) : (s.put c.top comp').lookup c = .ok comp' := by
  obtain ⟨hp, hk⟩ := lookup_eq_ok.mp hl
  exact lookup_eq_ok.mpr ⟨hp, put_getElem? comp' hk⟩

/-! ### A well-shaped SET_INPUT completes -/

theorem exec_cellSetInput {x : Cell} (hl : s.lookup c = .ok (.cell x)) (d : Bit) :
    exec (.cellSetInput c d) s = .next (s.put c.top (.cell (x.setInput d))) := onCell_eq _ hl

theorem exec_bitSetInput {b : LoadableBit} (hl : s.lookup c = .ok (.bit b)) (v l : Bit) :
    exec (.bitSetInput c v l) s = .next (s.put c.top (.bit (b.setInput v l))) := onBit_eq _ hl

theorem exec_regSetInput {r : Register} (hl : s.lookup c = .ok (.reg r)) {v : Bits} (hv : v.length = r.width) (l : Bit) :
    exec (.regSetInput c v l) s = .next (s.put c.top (.reg (r.setInput v l))) :=
  (onReg_eq _ hl).trans (checkShape_ok _ _ hv)

theorem exec_pcSetInput {p : Pc} (hl : s.lookup c = .ok (.pc p)) {v : Bits} (hv : v.length = 16) (l i r : Bit) :
    exec (.pcSetInput c v l i r) s = .next (s.put c.top (.pc (p.setInput v l i r))) :=
  (onPc_eq _ hl).trans (checkShape_ok _ _ hv)

theorem exec_levelSetInput (X : Level) (c : Ref) (w a : Bits) (l : Bit) (s : State) :
    exec (X.setInput c w a l) s = ramSetInput X c w a l s := by cases X <;> rfl

theorem exec_ramSetInput {X : Level} {m : Ram} (hl : s.lookup c = .ok (.ram m)) (hX : m.level = X) {w a : Bits}
    (hw : w.length = 16) (ha : a.length = X.addrWidth) (l : Bit) :
    exec (X.setInput c w a l) s = .next (s.put c.top (.ram (m.setInput w a l))) := by
  subst hX
  rw [exec_levelSetInput]
  exact (onRam_eq _ hl).trans ((checkShape_ok _ _ hw).trans (checkShape_ok _ _ ha))

end state

/-! ### The second SET_INPUT -/

section second

variable {s t : State} {c : Ref}

theorem exec_cellSetInput_again {d d' : Bit} (h : exec (.cellSetInput c d) s = .next t) :
    exec (.cellSetInput c d') t = exec (.cellSetInput c d') s := by
  obtain ⟨x, hl, h⟩ := onCell_next h
  injection h with h
  subst h
  rw [exec_cellSetInput (lookup_put hl _), exec_cellSetInput hl, State.put_put, Cell.setInput_setInput]

theorem exec_bitSetInput_again {v l v' l' : Bit} (h : exec (.bitSetInput c v l) s = .next t) :
    exec (.bitSetInput c v' l') t = exec (.bitSetInput c v' l') s := by
  obtain ⟨b, hl, h⟩ := onBit_next h
  injection h with h
  subst h
  rw [exec_bitSetInput (lookup_put hl _), exec_bitSetInput hl, State.put_put, LoadableBit.setInput_setInput]

/-- The first may also have raised the condition: it then left a reply, which the second overwrites (R209). -/
theorem exec_regSetInput_again {v v' : Bits} {l l' : Bit}
    (hlen : ∀ r, s.components[c.top]? = some (.reg r) → v'.length = r.width)
    (h : exec (.regSetInput c v l) s = .next t) : exec (.regSetInput c v' l') t = exec (.regSetInput c v' l') s := by
  obtain ⟨r, hl, h⟩ := onReg_next h
  have hv' : v'.length = r.width := hlen r (lookup_eq_ok.mp hl).2
  rw [exec_regSetInput hl hv']
  rcases checkShape_next h with ⟨hv, h⟩ | ⟨-, rfl⟩
  · injection h with h
    subst h
    have hw : v'.length = (r.setInput v l).width := hv'.trans (r.setInput_width v l hv.ge).symm
    rw [exec_regSetInput (lookup_put hl _) hw, State.put_put, r.setInput_setInput _ _ _ _ (hv'.trans hv.symm)]
  · rw [exec_regSetInput ((lookup_answer ..).trans hl) hv', State.answer_put]

theorem exec_ramSetInput_again {X : Level} {w a w' a' : Bits} {l l' : Bit} (hw' : w'.length = 16)
    (ha' : a'.length = X.addrWidth) (h : exec (X.setInput c w a l) s = .next t) :
    exec (X.setInput c w' a' l') t = exec (X.setInput c w' a' l') s := by
  rw [exec_levelSetInput] at h
  obtain ⟨hp, m, hk, hX, hfirst⟩ := ramSetInput_next h
  have hl : s.lookup c = .ok (.ram m) := lookup_eq_ok.mpr ⟨hp, hk⟩
  rw [exec_ramSetInput hl hX hw' ha']
  rcases hfirst with ⟨-, -, rfl⟩ | ⟨e, n, -, rfl⟩
  · rw [exec_ramSetInput (m := m.setInput w a l) (lookup_put hl _) hX hw' ha', State.put_put, Ram.setInput_setInput]
  · rw [exec_ramSetInput ((lookup_answer ..).trans hl) hX hw' ha', State.answer_put]

theorem exec_pcSetInput_again {v v' : Bits} {l i r l' i' r' : Bit} (hs : s.wf = true) (hv' : v'.length = 16)
    (h : exec (.pcSetInput c v l i r) s = .next t) :
    exec (.pcSetInput c v' l' i' r') t = exec (.pcSetInput c v' l' i' r') s := by
  obtain ⟨p, hl, h⟩ := onPc_next h
  rw [exec_pcSetInput hl hv']
  rcases checkShape_next h with ⟨-, h⟩ | ⟨-, rfl⟩
  · injection h with h
    subst h
    have hw := wf_component hs (lookup_eq_ok.mp hl).2
    simp only [Component.wf, Bool.and_eq_true, beq_iff_eq] at hw
    rw [exec_pcSetInput (lookup_put hl _) hv', State.put_put, Pc.setInput_setInput hw.1.le]
  · rw [exec_pcSetInput ((lookup_answer ..).trans hl) hv', State.answer_put]

end second

end Sys2Proof.Machine

namespace Sys2Proof.Proofs

open Sys2Proof Sys2Proof.Machine

/-- Settles O56: a SET_INPUT writes the recorded inputs of its component, and what is computed from them and from committed state,
so nothing of the first is left after the second. -/
theorem lastRecordedInputsWin : Obligations.LastRecordedInputsWin :=
  ⟨fun _ _ _ _ _ => exec_cellSetInput_again, fun _ _ _ _ _ _ _ => exec_bitSetInput_again,
    fun _ _ _ _ _ _ _ => exec_regSetInput_again, fun _ _ _ _ _ _ _ _ _ _ => exec_ramSetInput_again,
    fun _ _ _ _ _ _ _ _ _ _ _ => exec_pcSetInput_again⟩

end Sys2Proof.Proofs
end

section
/-! SUPPORT. The decoder reads back the call of every operation, and the settlement of the obligations on decode and encode. -/

namespace Sys2Proof

/-! ### The calls of a RAM level -/

section level

variable (X : Level) (c : Ref)

theorem decode_ram_setInput (w a : Bits) (l : Bit) :
    decode (packCall (.ram X) .setInput [c] [w, a] [l]) = .ok (X.setInput c w a l) := by simp [decode]

theorem decode_ram_recompute : decode (packCall (.ram X) .setInput [c] [] []) = .ok (X.recompute c) := by simp [decode]

theorem decode_ram_getOutput (a : Bits) : decode (packCall (.ram X) .getOutput [c] [a] []) = .ok (X.getOutput c a) := by
  simp [decode]

theorem decode_ram_onClock (level : Bit) :
    decode (packCall (.ram X) .onClock [c] [] [level]) = .ok (X.onClock c level) := by simp [decode]

theorem decode_ram_indexRead (a : Bits) : decode (packCall (.ram X) .indexRead [c] [a] []) = .ok (X.indexRead c a) := by
  simp [decode]

theorem decode_ram_indexWrite (w a : Bits) :
    decode (packCall (.ram X) .indexWrite [c] [w, a] []) = .ok (X.indexWrite c a w) := by simp [decode]

end level

/-! ### The call of every operation -/

/-- The reader that the decoder takes for the call of an operation is the one for the shape in which it is packed; of a call
with an empty bundle it has nothing to read. -/
theorem decode_encode (i : Instr) : decode (encode i) = .ok i := by
  cases i
  case cellSetInput => exact readBit_pack ..
  case bitSetInput => exact readValueLoad_pack ..
  case regSetInput => exact readBitsLoad_pack ..
  case pcSetInput => exact readPcInputs_pack ..
  case cellRecompute | bitRecompute | regRecompute | pcRecompute => rfl
  case cellGetOutput | bitGetOutput | regGetOutput | pcGetOutput => rfl
  case cellOnClock | bitOnClock | regOnClock | pcOnClock => exact readBit_pack ..
  case ram8SetInput | ram64SetInput | ram512SetInput | ram4kSetInput | ram16kSetInput => exact decode_ram_setInput ..
  case ram8Recompute | ram64Recompute | ram512Recompute | ram4kRecompute | ram16kRecompute =>
    exact decode_ram_recompute ..
  case ram8GetOutput | ram64GetOutput | ram512GetOutput | ram4kGetOutput | ram16kGetOutput =>
    exact decode_ram_getOutput ..
  case ram8OnClock | ram64OnClock | ram512OnClock | ram4kOnClock | ram16kOnClock => exact decode_ram_onClock ..
  case ram8IndexRead | ram64IndexRead | ram512IndexRead | ram4kIndexRead | ram16kIndexRead =>
    exact decode_ram_indexRead ..
  case ram8IndexWrite | ram64IndexWrite | ram512IndexWrite | ram4kIndexWrite | ram16kIndexWrite =>
    exact decode_ram_indexWrite ..
  case clockSubscribe | clockTick | clockElapsedTicks => rfl

/-- A call stands for an operation exactly if it is the encoding of it. -/
theorem decode_eq_ok_iff {c : Call} {i : Instr} : decode c = .ok i ↔ encode i = c :=
  ⟨encode_of_decode, fun h => h ▸ decode_encode i⟩

end Sys2Proof

namespace Sys2Proof.Proofs

open Sys2Proof

/-- Settles O4: one bundle shape per operation, each read back as it was packed. -/
theorem decodeOfEncodeIsTheOperation : Obligations.DecodeOfEncodeIsTheOperation := decode_encode

/-- Settles O5: each reader accepts only the packing of what it reads. -/
theorem encodeOfDecodeIsTheCall : Obligations.EncodeOfDecodeIsTheCall := fun _ _ => encode_of_decode

/-- Settles O7: each call written out is the encoding of its operation. -/
theorem specBundlesDecode : Obligations.SpecBundlesDecode := by
  refine ⟨?_, ?_, ?_, ?_, ?_, ?_, ?_, ?_⟩ <;> exact decode_eq_ok_iff.mpr rfl

end Sys2Proof.Proofs
end

section
/-! SUPPORT. The settlement of the obligation on the split of a RAM address. -/

namespace Sys2Proof.Proofs

open Sys2Proof Sys2Proof.Machine

/-- Settles O3: the selector and the sub-address are the quotient and the remainder of the word index, and a bit sequence is
its length and its value. -/
theorem addressSplitNamesTheWord : Obligations.AddressSplitNamesTheWord := by
  intro X a ha
  exact ⟨uint_split _ a, uint_addrSel_lt_fanOut ha, uint_addrSub_lt _ a, ha ▸ uint_lt a,
    fun b hb h => uint_inj (ha.trans hb.symm) h⟩

end Sys2Proof.Proofs
end

section
/-! SUPPORT. The first failing shape check of an operation raises the condition with its two lengths, and the settlement of the
obligation on wrong lengths. -/

namespace Sys2Proof.Machine

open Sys2Proof

/-! ### The operations of a RAM level -/

theorem exec_levelGetOutput (X : Level) (c : Ref) (a : Bits) (s : State) :
    exec (X.getOutput c a) s = ramGetOutput X c a s := by cases X <;> rfl

/-- INDEX_READ is GET_OUTPUT (R134, decision D7). -/
theorem exec_levelIndexRead (X : Level) (c : Ref) (a : Bits) (s : State) :
    exec (X.indexRead c a) s = ramGetOutput X c a s := by cases X <;> rfl

/-- INDEX_WRITE is SET_INPUT with load 1 (R135, decision D6). -/
theorem exec_levelIndexWrite (X : Level) (c : Ref) (a w : Bits) (s : State) :
    exec (X.indexWrite c a w) s = ramSetInput X c w a true s := by cases X <;> rfl

/-! ### Operands of the wrong length -/

section wrong

variable {s : State} {c : Ref}

theorem exec_regSetInput_wrongLength {r : Register} (hl : s.lookup c = .ok (.reg r)) {v : Bits} (hv : v.length ≠ r.width)
    (l : Bit) : exec (.regSetInput c v l) s = .next (s.answer (.invalidInputShape r.width v.length)) :=
  (onReg_eq _ hl).trans (checkShape_bad _ _ hv)

theorem exec_pcSetInput_wrongLength {p : Pc} (hl : s.lookup c = .ok (.pc p)) {v : Bits} (hv : v.length ≠ 16)
    (l i r : Bit) : exec (.pcSetInput c v l i r) s = .next (s.answer (.invalidInputShape 16 v.length)) :=
  (onPc_eq _ hl).trans (checkShape_bad _ _ hv)

variable {m : Ram} {w a : Bits} (hl : s.lookup c = .ok (.ram m))
include hl

theorem ramSetInput_wrongWord (hw : w.length ≠ 16) (load : Bit) :
    ramSetInput m.level c w a load s = .next (s.answer (.invalidInputShape 16 w.length)) :=
  (onRam_eq _ hl).trans (checkShape_bad _ _ hw)

/-- The address is checked once the word has passed (decision D9). -/
theorem ramSetInput_wrongAddress (hw : w.length = 16) (ha : a.length ≠ m.level.addrWidth) (load : Bit) :
    ramSetInput m.level c w a load s = .next (s.answer (.invalidInputShape m.level.addrWidth a.length)) :=
  (onRam_eq _ hl).trans ((checkShape_ok _ _ hw).trans (checkShape_bad _ _ ha))

theorem ramGetOutput_wrongAddress (ha : a.length ≠ m.level.addrWidth) :
    ramGetOutput m.level c a s = .next (s.answer (.invalidInputShape m.level.addrWidth a.length)) :=
  (onRam_eq _ hl).trans (checkShape_bad _ _ ha)

end wrong

end Sys2Proof.Machine

namespace Sys2Proof.Proofs

open Sys2Proof Sys2Proof.Machine

/-- Settles O52: the operand is the first that its operation finds of the wrong length. -/
theorem wrongLengthsRaiseTheCondition : Obligations.WrongLengthsRaiseTheCondition := by
  refine ⟨fun s k r v l hk hv => ?_, fun s k p v l i rst hk hv => ?_, fun X s k m w a l hk hX => ?_⟩
  · exact exec_regSetInput_wrongLength (lookup_ofTop hk) hv l
  · exact exec_pcSetInput_wrongLength (lookup_ofTop hk) hv l i rst
  · subst hX
    have hl := lookup_ofTop hk
    rw [exec_levelSetInput, exec_levelIndexWrite, exec_levelGetOutput, exec_levelIndexRead]
    refine ⟨fun hw => ⟨?_, ?_⟩, fun hw ha => ⟨?_, ?_⟩, fun ha => ⟨?_, ?_⟩⟩
    · exact ramSetInput_wrongWord hl hw l
    · exact ramSetInput_wrongWord hl hw true
    · exact ramSetInput_wrongAddress hl hw ha l
    · exact ramSetInput_wrongAddress hl hw ha true
    · exact ramGetOutput_wrongAddress hl ha
    · exact ramGetOutput_wrongAddress hl ha

end Sys2Proof.Proofs
end

section
/-! SUPPORT. The operations of the Cell on a Cell, the next Cell written out, and the settlement of the obligations on the Cell and
on ON_CLOCK. -/

namespace Sys2Proof.Machine

open Sys2Proof

theorem rising_iff {prev level : Bit} : rising prev level = true ↔ prev = false ∧ level = true := by simp [rising]

theorem Cell.onClock_eq (x : Cell) (level : Bit) :
    x.onClock level = ⟨x.pending, if x.prev = false ∧ level = true then x.pending else x.stored, level⟩ := by
  simp only [Cell.onClock, rising_iff]

section cell

variable {s : State} {c : Ref} {x : Cell} (hl : s.lookup c = .ok (.cell x))
include hl

/-- RECOMPUTE puts back the Cell that it found (R101). -/
theorem exec_cellRecompute : exec (.cellRecompute c) s = .next (s.answer .done) := by
  have hput : s.put c.top (.cell x) = s.answer .done := s.put_same _ _ (lookup_eq_ok.mp hl).2
  exact (onCell_eq _ hl).trans (congrArg _ hput)

theorem exec_cellGetOutput : exec (.cellGetOutput c) s = .next (s.answer (.pair x.stored (!x.stored))) := onCell_eq _ hl

end cell

end Sys2Proof.Machine

namespace Sys2Proof.Proofs

open Sys2Proof Sys2Proof.Machine

/-- Settles O43: the operation looks up its component and puts back the clocked one (`exec_onClock`). -/
theorem onClockIsTheEdgeOfItsComponent : Obligations.OnClockIsTheEdgeOfItsComponent :=
  fun _ _ _ _ _ hi hk hf => exec_onClock hi (lookup_ofTop hk) hf

/-- Settles O14: the Cell that is put back has the operand as its pending input. -/
theorem cellSetInputRecordsTheNextValue : Obligations.CellSetInputRecordsTheNextValue :=
  fun _ _ _ d hk => exec_cellSetInput (lookup_ofTop hk) d

/-- Settles O15: both operations write the reply only. -/
theorem cellReadAndRecomputeWriteNothing : Obligations.CellReadAndRecomputeWriteNothing :=
  fun _ _ _ hk => ⟨exec_cellRecompute (lookup_ofTop hk), exec_cellGetOutput (lookup_ofTop hk)⟩

/-- Settles O16: the edge of the Cell, with the rising-edge test spelled out. -/
theorem cellOnClockCommitsOnARisingEdge : Obligations.CellOnClockCommitsOnARisingEdge := by
  intro s k x level hk
  have hexec : exec (.cellOnClock (.ofTop k) level) s = .next (s.put k (.cell (x.onClock level))) :=
    exec_onClock rfl (lookup_ofTop hk) rfl
  rw [hexec, Cell.onClock_eq, State.put]

end Sys2Proof.Proofs
end

section
/-! SUPPORT. The operations of the Loadable Bit and of the N-bit Register on a component of theirs, the next Loadable Bit written
out, and the settlement of the obligations on the two. -/

namespace Sys2Proof.Machine

open Sys2Proof

/-! ### Loadable Bit -/

theorem LoadableBit.setInput_eq_mk (b : LoadableBit) (v l : Bit) :
    b.setInput v l = ⟨v, l, ⟨if l then v else b.cell.stored, b.cell.stored, b.cell.prev⟩⟩ := rfl

/-- RECOMPUTE is SET_INPUT with the recorded inputs again (R111). -/
theorem LoadableBit.recompute_eq_setInput (b : LoadableBit) : b.recompute = b.setInput b.recValue b.recLoad := rfl

/-- The Cell is clocked with the recomputed value pending (R113). -/
theorem LoadableBit.onClock_eq_mk (b : LoadableBit) (level : Bit) {next : Bit}
    (h : next = if b.recLoad then b.recValue else b.cell.stored) :
    b.onClock level = ⟨b.recValue, b.recLoad,
      ⟨next, if b.cell.prev = false ∧ level = true then next else b.cell.stored, level⟩⟩ := by
  rw [LoadableBit.onClock, Cell.onClock_eq, LoadableBit.recompute_eq_setInput, LoadableBit.setInput_eq_mk, ← h]

section bit

variable {s : State} {c : Ref} {b : LoadableBit} (hl : s.lookup c = .ok (.bit b))
include hl

theorem exec_bitRecompute : exec (.bitRecompute c) s = .next (s.put c.top (.bit b.recompute)) := onBit_eq _ hl

theorem exec_bitGetOutput : exec (.bitGetOutput c) s = .next (s.answer (.bit b.cell.stored)) := onBit_eq _ hl

end bit

/-! ### N-bit Register -/

section reg

variable {s : State} {c : Ref} {r : Register} (hl : s.lookup c = .ok (.reg r))
include hl

theorem exec_regRecompute : exec (.regRecompute c) s = .next (s.put c.top (.reg r.recompute)) := onReg_eq _ hl

theorem exec_regGetOutput : exec (.regGetOutput c) s = .next (s.answer (.bits r.output)) := onReg_eq _ hl

theorem exec_regOnClock (level : Bit) : exec (.regOnClock c level) s = .next (s.put c.top (.reg (r.onClock level))) :=
  exec_onClock rfl hl rfl

end reg

@[simp] theorem Register.init_output (n : Nat) : (Register.init n).output = List.replicate n false :=
  List.map_replicate

/-- A rising edge after SET_INPUT commits the operand if load is 1 and holds the committed bits if load is 0 (R36, R120). -/
theorem Register.setInput_onClock_output {r : Register} {W : Bits} (load : Bit) (hW : W.length = r.width)
    (hlow : ∀ b ∈ r.bits, b.cell.prev = false) :
    ((r.setInput W load).onClock true).output = if load then W else r.output := by
  have hbits : ∀ x ∈ (r.setInput W load).bits, x.recLoad = load ∧ x.cell.prev = false := by
    intro x hx
    obtain ⟨b, hb, v, rfl⟩ := r.mem_setInput W load hx
    exact ⟨b.setInput_recLoad v load, hlow b hb⟩
  rw [Register.onClock_output _ load true hbits, r.setInput_recValues W load hW, r.setInput_output W load hW.ge]
  rfl

/-! ### Runs -/

theorem perform_cons {i : Instr} {s t : State} (is : List Instr) (h : exec i s = .next t) :
    perform (i :: is) s = perform is t := by rw [perform, h]

theorem perform_singleton {i : Instr} {s t : State} (h : exec i s = .next t) : perform [i] s = .next t :=
  perform_cons [] h

end Sys2Proof.Machine

namespace Sys2Proof.Proofs

open Sys2Proof Sys2Proof.Machine

/-- Settles O21: bit i of the Register that is put back is bit i of the old one after BIT.SET_INPUT of `bits[i]`. -/
theorem regSetInputPairsEachBit : Obligations.RegSetInputPairsEachBit := by
  intro s k r bits load hk hlen
  refine ⟨r.setInput bits load, exec_regSetInput (lookup_ofTop hk) hlen load, r.setInput_width bits load hlen.ge, ?_⟩
  intro i b v hb hv
  rw [r.setInput_getElem? bits load i, hb, hv]
  exact congrArg some (b.setInput_eq_mk v load)

/-- Settles O25: the three operations complete one after the other, and the last returns what the edge has committed. -/
theorem registerCommitsTheWholeWord : Obligations.RegisterCommitsTheWholeWord := by
  intro s k r W load hk hW hlow
  simp only [Component.levelIs, List.all_eq_true, beq_iff_eq] at hlow
  have hl := lookup_ofTop hk
  have hl₁ := lookup_put hl (.reg (r.setInput W load))
  have hl₂ := lookup_put hl₁ (.reg ((r.setInput W load).onClock true))
  have hrun := (perform_cons _ (exec_regSetInput hl hW load)).trans <|
    (perform_cons _ (exec_regOnClock hl₁ true)).trans (perform_singleton (exec_regGetOutput hl₂))
  exact ⟨_, hrun, congrArg Reply.bits (Register.setInput_onClock_output load hW hlow)⟩

/-- Settles O17: the Loadable Bit that is put back, written out (`LoadableBit.setInput_eq_mk`). -/
theorem bitSetInputPresentsTheNextValue : Obligations.BitSetInputPresentsTheNextValue := by
  intro s k b value load hk
  rw [exec_bitSetInput (lookup_ofTop hk), LoadableBit.setInput_eq_mk, State.put]

/-- Settles O18: it is BIT.SET_INPUT with the recorded inputs, which stay. -/
theorem bitRecomputePresentsTheRecordedInputs : Obligations.BitRecomputePresentsTheRecordedInputs := by
  intro s k b hk
  rw [exec_bitRecompute (lookup_ofTop hk), LoadableBit.recompute_eq_setInput, LoadableBit.setInput_eq_mk, State.put]

/-- Settles O19: the answer is the Cell's primary output. -/
theorem bitGetOutputReturnsTheStoredBit : Obligations.BitGetOutputReturnsTheStoredBit :=
  ⟨fun _ _ _ hk => exec_bitGetOutput (lookup_ofTop hk), rfl⟩

/-- Settles O20: the edge of the Loadable Bit, which overwrites the pending input before the Cell is clocked. -/
theorem bitOnClockRecomputesThenCommits : Obligations.BitOnClockRecomputesThenCommits := by
  intro s k b level hk
  have hexec : exec (.bitOnClock (.ofTop k) level) s = .next (s.put k (.bit (b.onClock level))) :=
    exec_onClock rfl (lookup_ofTop hk) rfl
  refine ⟨_, rfl, ?_⟩
  rw [hexec, b.onClock_eq_mk level rfl, State.put]

/-- Settles O22: the bits that are put back are the old ones, each recomputed. -/
theorem regRecomputeRecomputesEachBit : Obligations.RegRecomputeRecomputesEachBit := by
  intro s k r hk
  refine ⟨r.recompute, exec_regRecompute (lookup_ofTop hk), r.recompute_width, fun i b hb => ?_⟩
  rw [Register.recompute, List.getElem?_map, hb, Option.map_some, LoadableBit.recompute_eq_setInput,
    LoadableBit.setInput_eq_mk]

/-- Settles O23: the answer holds the stored bit of each Loadable Bit, in their order. -/
theorem regGetOutputReturnsTheBitsInOrder : Obligations.RegGetOutputReturnsTheBitsInOrder := by
  refine ⟨fun s k r hk => ?_, Register.init_output⟩
  refine ⟨r.output, exec_regGetOutput (lookup_ofTop hk), r.output_length, fun i b hb => ?_⟩
  rw [Register.output, List.getElem?_map, hb]
  rfl

/-- Settles O24: the bits that are put back are the old ones, each clocked with the level. -/
theorem regOnClockReachesEveryBit : Obligations.RegOnClockReachesEveryBit := by
  intro s k r level hk
  refine ⟨r.onClock level, exec_regOnClock (lookup_ofTop hk) level, r.onClock_width level, fun i b hb => ?_⟩
  rw [Register.onClock, List.getElem?_map, hb, Option.map_some]

end Sys2Proof.Proofs
end

section
/-! SUPPORT. The operations of a RAM level on a RAM of that level, the words after a write and a tick, and the settlement of the
obligations on the flat view of the Memory Hierarchy. -/

namespace Sys2Proof.Machine

open Sys2Proof

/-! ### The flat level -/

section ram

variable (m : Ram)

theorem Ram.setInput_eq_mk (word address : Bits) (load : Bit) :
    m.setInput word address load = ⟨m.level, wordOfBits word, address, load, m.mem, m.prev⟩ := rfl

/-- The recorded inputs stay in force at every edge (R133). -/
theorem Ram.onClock_eq_mk (level : Bit) :
    m.onClock level = ⟨m.level, m.recWord, m.recAddress, m.recLoad, (m.onClock level).mem, level⟩ := rfl

theorem Ram.onClock_wf {m : Ram} (h : m.mem.wf = true) (level : Bit) : (m.onClock level).mem.wf = true := by
  rw [Ram.onClock]
  split
  · exact memWrite_wf _ _ h
  · exact h

/-- A falling edge writes no word (R133). -/
@[simp] theorem Ram.onClock_false_mem : (m.onClock false).mem = m.mem := by simp [Ram.onClock, rising]

/-- When an edge writes: it is a rising edge and load is recorded (R133). -/
theorem Ram.writes_iff {level : Bit} :
    (rising m.prev level && m.recLoad) = true ↔ m.prev = false ∧ level = true ∧ m.recLoad = true := by
  rw [Bool.and_eq_true, rising_iff, and_assoc]

/-- With load 0 recorded no edge writes a word (R133). -/
theorem Ram.onClock_mem_of_no_load {m : Ram} (h : m.recLoad = false) (level : Bit) : (m.onClock level).mem = m.mem := by
  simp [Ram.onClock, h]

/-- A rising edge after SET_INPUT with load 1 writes the operand at its address and nothing else (R133, R142). -/
theorem Ram.setInput_onClock_read {m : Ram} (h : m.mem.wf = true) (hlow : m.prev = false) (word x : Bits) (a : Nat) :
    memRead ((m.setInput word x true).onClock true).mem a = if a = uint x then wordOfBits word else memRead m.mem a := by
  have hm : (m.setInput word x true).mem.wf = true := h
  have hedge : (rising (m.setInput word x true).prev true && (m.setInput word x true).recLoad) = true := by
    simp [Ram.setInput, rising, hlow]
  simp only [Ram.onClock_read hm, hedge, true_and]
  rfl

end ram

/-! ### The operations -/

theorem exec_levelRecompute (X : Level) (c : Ref) (s : State) : exec (X.recompute c) s = ramRecompute X c s := by
  cases X <;> rfl

theorem exec_levelOnClock (X : Level) (c : Ref) (level : Bit) (s : State) :
    exec (X.onClock c level) s = ramOnClock X c level s := by cases X <;> rfl

section exec

variable {s : State} {c : Ref} {X : Level} {m : Ram} (hl : s.lookup c = .ok (.ram m)) (hX : m.level = X)
include hl hX

/-- RECOMPUTE puts back the level that it found (R131). -/
theorem exec_ramRecompute : exec (X.recompute c) s = .next (s.answer .done) := by
  subst hX
  have hput : s.put c.top (.ram m) = s.answer .done := s.put_same _ _ (lookup_eq_ok.mp hl).2
  rw [exec_levelRecompute]
  exact (onRam_eq _ hl).trans (congrArg _ hput)

theorem exec_ramOnClock (level : Bit) : exec (X.onClock c level) s = .next (s.put c.top (.ram (m.onClock level))) :=
  (exec_levelOnClock ..).trans (ramOnClock_eq level hl hX)

theorem ramGetOutput_eq {a : Bits} (ha : a.length = X.addrWidth) :
    ramGetOutput X c a s = .next (s.answer (.bits (bitsOfWord (m.read a)))) := by
  subst hX
  exact (onRam_eq _ hl).trans (checkShape_ok _ _ ha)

theorem exec_ramGetOutput {a : Bits} (ha : a.length = X.addrWidth) :
    exec (X.getOutput c a) s = .next (s.answer (.bits (bitsOfWord (m.read a)))) :=
  (exec_levelGetOutput ..).trans (ramGetOutput_eq hl hX ha)

end exec

/-! ### A write, an edge or a tick, and a read -/

/-- A TICK gives a subscribed component one rising and one falling edge (R181). -/
theorem lookup_tick {s : State} {k : Nat} {comp : Component} (hl : s.lookup (.ofTop k) = .ok comp)
    (hsub : k ∈ s.clock.subscribers) : s.tick.lookup (.ofTop k) = .ok ((comp.onClock true).onClock false) := by
  apply lookup_ofTop
  rw [tick_component, (lookup_eq_ok.mp hl).2, Option.map_some, if_pos hsub]

/-- A write to a subscribed level, a TICK and a read: the read returns the word at its address after the two edges. -/
theorem perform_write_tick_read {s : State} {k : Nat} {X : Level} {m : Ram} (hk : s.components[k]? = some (.ram m))
    (hX : m.level = X) (hsub : k ∈ s.clock.subscribers) {word x y : Bits} (hw : word.length = 16)
    (hx : x.length = X.addrWidth) (hy : y.length = X.addrWidth) (load : Bit) :
    ∃ t, perform [X.setInput (.ofTop k) word x load, .clockTick, X.getOutput (.ofTop k) y] s = .next t ∧
      t.reply = .bits (bitsOfWord (memRead ((m.setInput word x load).onClock true).mem (uint y))) := by
  have hl := lookup_ofTop hk
  have hl₁ := lookup_put hl (.ram (m.setInput word x load))
  have hl₂ := (lookup_answer _ .done _).trans (lookup_tick hl₁ hsub)
  have hrun := (perform_cons _ (exec_ramSetInput hl hX hw hx load)).trans <|
    (perform_cons (i := .clockTick) _ rfl).trans (perform_singleton (exec_ramGetOutput hl₂ hX hy))
  refine ⟨_, hrun, ?_⟩
  rw [State.answer_reply, Ram.read, Ram.onClock_false_mem]

end Sys2Proof.Machine

namespace Sys2Proof.Proofs

open Sys2Proof Sys2Proof.Machine

/-- Settles O31: the words after the edge, by the law of reading after an edge (`Ram.onClock_read`). -/
theorem ramOnClockWritesTheRecordedWord : Obligations.RamOnClockWritesTheRecordedWord := by
  intro X s k m level hk hX hm
  refine ⟨(m.onClock level).mem, Ram.onClock_wf hm level, ?_, fun a ha => ?_, fun hlow hhigh hload => ?_⟩
  · subst hX
    rw [exec_ramOnClock (lookup_ofTop hk) rfl level, Ram.onClock_eq_mk, State.put]
  · rw [Ram.onClock_read hm, if_neg]
    rintro ⟨hedge, haddr⟩
    obtain ⟨hlow, hhigh, hload⟩ := m.writes_iff.mp hedge
    exact ha ⟨hlow, hhigh, hload, haddr⟩
  · rw [Ram.onClock_read hm, if_pos ⟨m.writes_iff.mpr ⟨hlow, hhigh, hload⟩, rfl⟩]

/-- Settles O32: two addresses of one length that differ name two words, and the edge writes one of them. -/
theorem writeLeavesOtherWordsAlone : Obligations.WriteLeavesOtherWordsAlone := by
  intro X s k m word x y hk hX hm hlow hw hx hy hne
  have hl := lookup_ofTop hk
  have hl₁ := lookup_put hl (.ram (m.setInput word x true))
  have hl₂ := lookup_put hl₁ (.ram ((m.setInput word x true).onClock true))
  have hrun := (perform_cons _ (exec_ramSetInput hl hX hw hx true)).trans <|
    (perform_cons _ (exec_ramOnClock hl₁ hX true)).trans (perform_singleton (exec_ramGetOutput hl₂ hX hy))
  have hother : uint y ≠ uint x := fun h => hne (uint_inj (hy.trans hx.symm) h)
  refine ⟨_, hrun, ?_⟩
  rw [State.answer_reply, Ram.read, Ram.setInput_onClock_read hm hlow, if_neg hother]

/-- Settles O33: the rising edge of the tick writes the word, and the read returns it. -/
theorem writeTickReadRoundTrip : Obligations.WriteTickReadRoundTrip := by
  intro X s k m W x hk hX hm hlow hsub hW hx
  obtain ⟨t, hrun, hreply⟩ := perform_write_tick_read hk hX hsub hW hx hx true
  rw [Ram.setInput_onClock_read hm hlow, if_pos rfl, bitsOfWord_wordOfBits hW] at hreply
  exact ⟨t, hrun, hreply, Nat.le_sub_one_of_lt (hx ▸ uint_lt x)⟩

/-- Settles O34: with load 0 recorded the rising edge of the tick writes no word. -/
theorem noLoadHolds : Obligations.NoLoadHolds := by
  intro X s k m word x y hk hX hsub hw hx hy
  obtain ⟨t, hrun, hreply⟩ := perform_write_tick_read hk hX hsub hw hx hy false
  rw [Ram.onClock_mem_of_no_load rfl] at hreply
  exact ⟨t, hrun, hreply⟩

/-- Settles O27: the level that is put back, written out (`Ram.setInput_eq_mk`). -/
theorem ramSetInputRecordsTheWrite : Obligations.RamSetInputRecordsTheWrite := by
  intro X s k m word address load hk hX hw ha
  rw [exec_ramSetInput (lookup_ofTop hk) hX hw ha, Ram.setInput_eq_mk, hX, State.put]

/-- Settles O28: on every operand both are the one shared operation with load 1. -/
theorem ramIndexWriteRecordsALoadedWrite : Obligations.RamIndexWriteRecordsALoadedWrite := by
  have hsame (X : Level) (s : State) (c : Ref) (address word : Bits) :
      exec (X.indexWrite c address word) s = exec (X.setInput c word address true) s :=
    (exec_levelIndexWrite ..).trans (exec_levelSetInput ..).symm
  refine ⟨hsame, fun X s k m address word hk hX hw ha => ?_⟩
  rw [hsame]
  exact ramSetInputRecordsTheWrite X s k m word address true hk hX hw ha

/-- Settles O29: the level that is put back is the one that was there. -/
theorem ramRecomputeChangesNothing : Obligations.RamRecomputeChangesNothing :=
  fun _ _ _ _ hk hX => exec_ramRecompute (lookup_ofTop hk) hX

/-- Settles O30: both reads are the one shared operation, which does not look at the recorded write. -/
theorem ramReadReturnsTheAddressedWord : Obligations.RamReadReturnsTheAddressedWord := by
  intro X s k m address hk hX ha
  have hl := lookup_ofTop hk
  exact ⟨bitsOfWord (m.read address), exec_ramGetOutput hl hX ha,
    (exec_levelIndexRead ..).trans (ramGetOutput_eq hl hX ha), bitsOfWord_length _, uint_bitsOfWord _⟩

end Sys2Proof.Proofs
end

section
/-! SUPPORT. The composition tree of a RAM level (R136) under its operations and at construction, by induction over the selector widths,
and the settlement of the obligations that relate it to the flat level. -/

namespace Sys2Proof.Machine

open Sys2Proof

/-! ### One bit of a Register at the leaf -/

/-- A Loadable Bit with these recorded inputs, stored bit and clock level whose pending input is the one of R33. -/
def settledBit (stored value load prev : Bit) : LoadableBit :=
  { recValue := value, recLoad := load, cell := { pending := mux load stored value, stored := stored, prev := prev } }

theorem settledBit_setInput (stored value load prev value' load' : Bit) :
    (settledBit stored value load prev).setInput value' load' = settledBit stored value' load' prev := rfl

theorem settledBit_recompute (stored value load prev : Bit) :
    (settledBit stored value load prev).recompute = settledBit stored value load prev := rfl

/-- The edge commits the recorded value if load is recorded, and the pending input follows the committed bit (R113). -/
theorem settledBit_onClock (stored value load prev level : Bit) :
    (settledBit stored value load prev).onClock level =
      settledBit (if rising prev level && load then value else stored) value load level := by
  apply LoadableBit.ext_of_settled (LoadableBit.onClock_settled ..) (by simp [LoadableBit.settled, settledBit])
  rw [LoadableBit.onClock_flat]
  rfl

/-! ### The Register at the leaf -/

section leaf

variable (w recWord : Word) (load prev : Bit)

theorem wordRegister_eq_zipWith :
    wordRegister w recWord load prev =
      ⟨List.zipWith (fun stored value => settledBit stored value load prev) (bitsOfWord w) (bitsOfWord recWord)⟩ := rfl

theorem wordRegister_setInput (recWord' : Word) (load' : Bit) :
    (wordRegister w recWord load prev).setInput (bitsOfWord recWord') load' = wordRegister w recWord' load' prev := by
  simp only [wordRegister_eq_zipWith, Register.setInput, Register.mk.injEq]
  exact List.ext_getElem (by simp) fun i _ _ => by simp [settledBit_setInput]

theorem wordRegister_recompute : (wordRegister w recWord load prev).recompute = wordRegister w recWord load prev := by
  simp only [wordRegister_eq_zipWith, Register.recompute, List.map_zipWith, settledBit_recompute]

/-- The edge commits the recorded word if load is recorded (R118, R119). -/
theorem wordRegister_onClock (level : Bit) :
    (wordRegister w recWord load prev).onClock level =
      wordRegister (if rising prev level && load then recWord else w) recWord load level := by
  simp only [wordRegister_eq_zipWith, Register.onClock, List.map_zipWith, settledBit_onClock, Register.mk.injEq]
  refine List.ext_getElem (by simp) fun i _ _ => ?_
  by_cases hedge : (rising prev level && load) = true
  · simp [hedge]
  · simp [hedge]

theorem wordRegister_output : (wordRegister w recWord load prev).output = bitsOfWord w := by
  have hbits := zipWith_map_left (fun stored value => settledBit stored value load prev) LoadableBit.output id
    (fun _ _ => rfl) (bitsOfWord w) (bitsOfWord recWord) (by simp)
  rw [wordRegister_eq_zipWith, Register.output, hbits, List.map_id]

theorem wordRegister_zero : wordRegister 0 0 false false = Register.init wordWidth := by decide

end leaf

/-! ### The address split -/

/-- The word index of word j of child k, compared with the word index of an address (R83). -/
theorem child_index_eq_uint_iff {L j : Nat} (a : Bits) (k : Nat) (hj : j < 2 ^ L) :
    k * 2 ^ L + j = uint a ↔ k = uint (addrSel L a) ∧ j = uint (addrSub L a) := by
  have hsub := uint_addrSub_lt L a
  have hpos : 0 < 2 ^ L := Nat.two_pow_pos L
  rw [uint_split L a]
  refine ⟨fun h => ?_, fun ⟨hk, hj⟩ => by rw [hk, hj]⟩
  have hdiv := congrArg (· / 2 ^ L) h
  have hmod := congrArg (· % 2 ^ L) h
  simp only [Nat.mul_add_mod_self_right, Nat.mod_eq_of_lt, hj, hsub] at hmod
  rw [hmod] at h
  exact ⟨Nat.eq_of_mul_eq_mul_right hpos (Nat.add_right_cancel h), hmod⟩

/-- The words of child k are among the words of the level. -/
theorem child_index_lt {S L k j : Nat} (hk : k < 2 ^ S) (hj : j < 2 ^ L) : k * 2 ^ L + j < 2 ^ (S + L) := by
  have hle : (k + 1) * 2 ^ L ≤ 2 ^ S * 2 ^ L := Nat.mul_le_mul_right _ hk
  rw [Nat.add_one_mul, ← pow_add] at hle
  omega

/-! ### The tree -/

section tree

variable (S : Nat) (below : List Nat) (mem : Nat → Word) (recWord : Word) (recAddress : Bits) (load prev : Bit)

/-- Child k of the tree of a flat level: the tree of the words whose selector is k. -/
def treeChild (k : Nat) : RamTree below :=
  treeOf below (fun j => mem (k * 2 ^ below.sum + j)) recWord (addrSub below.sum recAddress)
    (dmuxLine load (addrSel below.sum recAddress) k) prev

theorem treeOf_cons :
    treeOf (S :: below) mem recWord recAddress load prev =
      (⟨recWord, recAddress, load,
        (List.range (2 ^ S)).map (treeChild below mem recWord recAddress load prev)⟩ : Block (RamTree below)) := rfl

theorem treeSetInput_cons (m : Block (RamTree below)) :
    treeSetInput (S :: below) m recWord recAddress load =
      decodeForward (2 ^ S) below.sum (treeSetInput below) ⟨recWord, recAddress, load, m.child⟩ := rfl

theorem treeGetOutput_cons (m : Block (RamTree below)) (address : Bits) :
    treeGetOutput (S :: below) m address =
      select (addrSel below.sum address) (m.child.map fun t => treeGetOutput below t (addrSub below.sum address)) [] := rfl

/-- DECODE_FORWARD to children numbered 0 to F - 1 gives each the word, the sub-address and the line of its number (R136). -/
theorem decodeForward_range {γ : Type} (F L : Nat) (forward : γ → Word → Bits → Bit → γ) (child : Nat → γ) :
    decodeForward F L forward ⟨recWord, recAddress, load, (List.range F).map child⟩ =
      ⟨recWord, recAddress, load, (List.range F).map fun k =>
        forward (child k) recWord (addrSub L recAddress) (dmuxLine load (addrSel L recAddress) k)⟩ := by
  simp only [decodeForward, dmux, List.zipWith_map, List.zipWith_self]

end tree

/-- SET_INPUT on the tree of a flat level replaces the recorded inputs, at every level down to the Loadable Bits (R130). -/
theorem treeSetInput_treeOf (sels : List Nat) (mem : Nat → Word) (w w' : Word) (a a' : Bits) (load load' prev : Bit) :
    treeSetInput sels (treeOf sels mem w a load prev) w' a' load' = treeOf sels mem w' a' load' prev := by
  induction sels generalizing mem w w' a a' load load' with
  | nil => exact wordRegister_setInput ..
  | cons S below ih =>
    rw [treeOf_cons, treeOf_cons, treeSetInput_cons, decodeForward_range]
    exact congrArg (Block.mk w' a' load') (List.map_congr_left fun _ _ => ih ..)

/-- The children of the tree of a flat level hold what DECODE_FORWARD gives them (R136). -/
theorem decodeForward_treeOf (S : Nat) (below : List Nat) (mem : Nat → Word) (w : Word) (a : Bits) (load prev : Bit) :
    decodeForward (2 ^ S) below.sum (treeSetInput below) (treeOf (S :: below) mem w a load prev) =
      treeOf (S :: below) mem w a load prev := by
  rw [treeOf_cons, decodeForward_range]
  exact congrArg (Block.mk w a load) (List.map_congr_left fun _ _ => treeSetInput_treeOf ..)

theorem treeRecompute_treeOf (sels : List Nat) (mem : Nat → Word) (w : Word) (a : Bits) (load prev : Bit) :
    treeRecompute sels (treeOf sels mem w a load prev) = treeOf sels mem w a load prev := by
  cases sels with
  | nil => exact wordRegister_recompute ..
  | cons S below => exact decodeForward_treeOf ..

/-- ON_CLOCK on the tree of a flat level gives the tree of the words after the flat write (R133). Only a single Register has no
selector bits; it is written whenever load is recorded, so the address must be 0 there. -/
theorem treeOnClock_treeOf (sels : List Nat) {mem mem' : Nat → Word} (w : Word) {a : Bits} {load : Bit} (prev level : Bit)
    (ha : sels = [] → uint a = 0)
    (hmem : ∀ i < 2 ^ sels.sum, mem' i = if (rising prev level && load) = true ∧ i = uint a then w else mem i) :
    treeOnClock sels (treeOf sels mem w a load prev) level = treeOf sels mem' w a load level := by
  induction sels generalizing mem mem' a load with
  | nil =>
    have hword : mem' 0 = if rising prev level && load then w else mem 0 := by simpa [ha rfl] using hmem 0 (by simp)
    rw [treeOf, treeOf, hword]
    exact wordRegister_onClock ..
  | cons S below ih =>
    rw [treeOnClock, decodeForward_treeOf, treeOf_cons, treeOf_cons, List.map_map]
    refine congrArg (Block.mk w a load) (List.map_congr_left fun k hk => ih (fun hnil => ?_) fun j hj => ?_)
    · subst hnil
      exact Nat.lt_one_iff.mp (uint_addrSub_lt 0 a)
    · have hlt : k * 2 ^ below.sum + j < 2 ^ (S :: below).sum := child_index_lt (List.mem_range.mp hk) hj
      rw [hmem _ hlt]
      simp only [child_index_eq_uint_iff a k hj, Bool.and_eq_true, dmuxLine_eq_true, and_assoc]

/-- Reading the tree of a flat level at an address of its width gives the word of that index (R132). -/
theorem treeGetOutput_treeOf (sels : List Nat) (mem : Nat → Word) (w : Word) (a : Bits) (load prev : Bit) {address : Bits}
    (h : address.length = sels.sum) :
    treeGetOutput sels (treeOf sels mem w a load prev) address = bitsOfWord (mem (uint address)) := by
  induction sels generalizing mem a load address with
  | nil =>
    obtain rfl : address = [] := List.eq_nil_of_length_eq_zero h
    exact wordRegister_output ..
  | cons S below ih =>
    rw [List.sum_cons] at h
    have hsel : uint (addrSel below.sum address) < 2 ^ S := by
      have hlen : (addrSel below.sum address).length = S := by simp [addrSel, h]
      exact hlen ▸ uint_lt _
    have hsub : (addrSub below.sum address).length = below.sum := by simp [addrSub, h]
    rw [treeOf_cons, treeGetOutput_cons, select]
    simp only [List.map_map, List.getD_eq_getElem?_getD, List.getElem?_map, List.getElem?_range hsel, Option.map_some,
      Option.getD_some, Function.comp_apply, treeChild, ih _ _ _ hsub]
    rw [← uint_split]

/-- The tree of a level whose words and recorded inputs are all 0 is the tree at construction (R37, R38). -/
theorem treeOf_zero (sels : List Nat) :
    treeOf sels (fun _ => 0) 0 (List.replicate sels.sum false) false false = treeInit sels := by
  induction sels with
  | nil => exact wordRegister_zero
  | cons S below ih =>
    have hchild : ∀ k, treeChild below (fun _ => 0) 0 (List.replicate (S :: below).sum false) false false k =
        treeInit below := fun k => by
      have hsub : addrSub below.sum (List.replicate (S :: below).sum false) = List.replicate below.sum false := by
        simp [addrSub]
      rw [treeChild, hsub]
      exact ih
    rw [treeOf_cons, treeInit, List.map_congr_left fun k _ => hchild k, List.map_const', List.length_range]
    rfl

theorem selectors_ne_nil (X : Level) : X.selectors ≠ [] := by cases X <;> simp [Level.selectors]

end Sys2Proof.Machine

namespace Sys2Proof.Proofs

open Sys2Proof Sys2Proof.Machine

/-- Settles O35: the three operations on the tree of any function of words, at the words of the level. An edge writes them as
`Ram.onClock_read` has it. -/
theorem ramTreeFollowsTheFlatLevel : Obligations.RamTreeFollowsTheFlatLevel := by
  intro m hm
  refine ⟨fun word address load _ _ => treeSetInput_treeOf .., treeRecompute_treeOf .., fun level => ?_⟩
  exact treeOnClock_treeOf _ _ _ _ (fun hnil => absurd hnil (selectors_ne_nil _)) fun i _ => Ram.onClock_read hm level i

/-- Settles O36: the tree read at the words of the level, and the tree of the level at construction. -/
theorem ramTreeReadsTheFlatWord : Obligations.RamTreeReadsTheFlatWord := by
  refine ⟨fun m address h => treeGetOutput_treeOf _ _ _ _ _ _ (h.trans (Level.addrWidth_eq _)), fun X => ?_⟩
  rw [← treeOf_zero, ← Level.addrWidth_eq]
  rfl

end Sys2Proof.Proofs
end

section
/-! SUPPORT. The operations of the Program Counter on a Program Counter, the count after one tick, and the settlement of the obligations
on the Program Counter. -/

namespace Sys2Proof.Machine

open Sys2Proof

/-! ### The next value -/

section priority

variable (v w : Word) (load increment : Bit)

/-- Reset has the highest priority (R160). -/
@[simp] theorem pcNext_reset : pcNext v w load increment true = 0 := rfl

/-- Load comes before increment (R160). -/
@[simp] theorem pcNext_load : pcNext v w true increment false = w := rfl

@[simp] theorem pcNext_increment : pcNext v w false true false = v + 1 := rfl

end priority

theorem bitsOfWord_zero : bitsOfWord 0 = List.replicate 16 false := by decide

section pc

variable {p : Pc}

theorem levelIs_pc {level : Bit} : (Component.pc p).levelIs level = true ↔ ∀ b ∈ p.reg.bits, b.cell.prev = level := by
  simp [Component.levelIs]

theorem Pc.setInput_width (h : p.reg.width ≤ 16) (v : Bits) (l i r : Bit) :
    (p.setInput v l i r).reg.width = p.reg.width := Pc.drive_width _ h

theorem Pc.setInput_prev {prev : Bit} (hp : ∀ b ∈ p.reg.bits, b.cell.prev = prev) (v : Bits) (l i r : Bit) :
    ∀ b ∈ (p.setInput v l i r).reg.bits, b.cell.prev = prev := fun _ hb =>
  (Pc.mem_drive ⟨wordOfBits v, l, i, r, p.reg⟩ hp hb).2

/-- SET_INPUT leaves the count, so the next value is chosen from it (R160, R162). -/
theorem Pc.setInput_next (h : p.reg.width ≤ 16) (v : Bits) (l i r : Bit) :
    (p.setInput v l i r).next = pcNext p.value (wordOfBits v) l i r := Pc.drive_next _ h

/-- The bits of the Register after an edge: they still record and present the value that the drive before the edge has given them. -/
theorem Pc.onClock_bits (h : p.reg.width = 16) (level : Bit) :
    (p.onClock level).reg.bits.map (fun b => (b.recLoad, b.recValue, b.cell.pending)) =
      (bitsOfWord p.next).map fun n => (true, n, n) := by
  rw [Pc.onClock, Register.onClock, Pc.drive, Register.setInput, List.map_zipWith]
  exact zipWith_map_right (fun (b : LoadableBit) v => (b.setInput v true).onClock level) _ _ (fun _ _ => rfl) _ _
    (by simpa [Register.width] using h.ge)

/-! ### One tick -/

/-- A Program Counter after the two edges of a TICK (R181). -/
def Pc.ticked (p : Pc) : Pc := (p.onClock true).onClock false

/-- A TICK gives a subscribed Program Counter its two edges, however often it is subscribed (R184, decision D3). -/
theorem lookup_tick_pc {s : State} {k : Nat} (hl : s.lookup (.ofTop k) = .ok (.pc p)) (hsub : k ∈ s.clock.subscribers) :
    s.tick.lookup (.ofTop k) = .ok (.pc p.ticked) := lookup_tick hl hsub

theorem Pc.ticked_width (h : p.reg.width = 16) : p.ticked.reg.width = 16 := by
  rw [Pc.ticked, Pc.onClock_width _ _ (p.onClock_width_le true), p.onClock_width true h.le, h]

theorem Pc.ticked_prev : ∀ b ∈ p.ticked.reg.bits, b.cell.prev = false := Pc.onClock_prev _ false

/-- The rising edge commits the next value, and the falling edge commits nothing (R165). -/
theorem Pc.ticked_value (h : p.reg.width = 16) (hlow : ∀ b ∈ p.reg.bits, b.cell.prev = false) : p.ticked.value = p.next :=
  calc p.ticked.value
    _ = (p.onClock true).value :=
      congrArg wordOfBits (Pc.onClock_output_hold _ false (p.onClock_width_le true) (.inl rfl))
    _ = p.next := p.onClock_value true h hlow

/-- With only increment recorded one tick adds 1 (R167). -/
theorem Pc.ticked_value_of_increment (h : p.reg.width = 16) (hlow : ∀ b ∈ p.reg.bits, b.cell.prev = false)
    (hr : p.recReset = false) (hl : p.recLoad = false) (hi : p.recIncrement = true) : p.ticked.value = p.value + 1 := by
  rw [Pc.ticked_value h hlow, Pc.next, hr, hl, hi, pcNext_increment]

/-! ### The operations -/

section exec

variable {s : State} {c : Ref} (hl : s.lookup c = .ok (.pc p))
include hl

theorem exec_pcRecompute : exec (.pcRecompute c) s = .next (s.put c.top (.pc p.recompute)) := onPc_eq _ hl

theorem exec_pcOnClock (level : Bit) : exec (.pcOnClock c level) s = .next (s.put c.top (.pc (p.onClock level))) :=
  exec_onClock rfl hl rfl

theorem exec_pcGetOutput (h : p.reg.width = 16) :
    exec (.pcGetOutput c) s = .next (s.answer (.bits (bitsOfWord p.value))) := by
  rw [Pc.value, bitsOfWord_wordOfBits (p.reg.output_length.trans h)]
  exact onPc_eq _ hl

end exec

/-- A SET_INPUT of a subscribed Program Counter, a TICK and a read: the read returns the next value chosen from the count and the
operands. -/
theorem perform_pcSetInput_tick_read {s : State} {k : Nat} (hk : s.components[k]? = some (.pc p)) (h : p.reg.width = 16)
    (hlow : (Component.pc p).levelIs false = true) (hsub : k ∈ s.clock.subscribers) {v : Bits} (hv : v.length = 16)
    (l i r : Bit) :
    ∃ t, perform [.pcSetInput (.ofTop k) v l i r, .clockTick, .pcGetOutput (.ofTop k)] s = .next t ∧
      t.reply = .bits (bitsOfWord (pcNext p.value (wordOfBits v) l i r)) := by
  have h' : (p.setInput v l i r).reg.width = 16 := (Pc.setInput_width h.le v l i r).trans h
  have hlow' := Pc.setInput_prev (levelIs_pc.mp hlow) v l i r
  have hl := lookup_ofTop hk
  have hl₁ := lookup_put hl (.pc (p.setInput v l i r))
  have hl₂ := (lookup_answer _ .done _).trans (lookup_tick_pc hl₁ hsub)
  have hrun := (perform_cons _ (exec_pcSetInput hl hv l i r)).trans <|
    (perform_cons (i := .clockTick) _ rfl).trans (perform_singleton (exec_pcGetOutput hl₂ (Pc.ticked_width h')))
  refine ⟨_, hrun, ?_⟩
  rw [State.answer_reply, Pc.ticked_value h' hlow', Pc.setInput_next h.le]

end pc

end Sys2Proof.Machine

namespace Sys2Proof.Proofs

open Sys2Proof Sys2Proof.Machine

/-- Settles O37: both operations put back a driven Program Counter, and a drive gives the Register the next value and nothing else. -/
theorem pcSetInputDrivesTheRegister : Obligations.PcSetInputDrivesTheRegister := by
  intro s k p hk h
  refine ⟨fun v l i r hv => ⟨(p.setInput v l i r).reg, exec_pcSetInput (lookup_ofTop hk) hv l i r, ?_, ?_, ?_⟩,
    p.recompute.reg, exec_pcRecompute (lookup_ofTop hk), p.drive_output h.le, p.drive_prevs h.le, p.drive_bits h⟩
  · exact Pc.drive_output _ h.le
  · exact Pc.drive_prevs _ h.le
  · exact Pc.drive_bits _ h

/-- Settles O39: the drive chooses the next value, and the edge of the Register commits it (`Pc.onClock_value`). -/
theorem pcOnClockCommitsTheNextValue : Obligations.PcOnClockCommitsTheNextValue := by
  intro s k p level prev hk h hprev
  refine ⟨(p.onClock level).reg, exec_pcOnClock (lookup_ofTop hk) level, p.onClock_prev level, Pc.onClock_bits h level, ?_⟩
  have hvalue := p.onClock_value level h (levelIs_pc.mp hprev)
  simp only [rising_iff] at hvalue
  exact hvalue

/-- Settles O40: the read after the tick returns the next value, which is chosen by priority. -/
theorem pcPriority : Obligations.PcPriority := by
  intro s k p v hk h hlow hsub hv
  have hread := perform_pcSetInput_tick_read hk h hlow hsub hv true true
  refine ⟨?_, ?_⟩
  · simpa only [pcNext_reset, bitsOfWord_zero] using hread true
  · simpa only [pcNext_load, bitsOfWord_wordOfBits hv] using hread false

/-- Settles O41, by induction on the number of ticks: each one adds 1 and leaves the premises in force. -/
theorem pcCountsTicks : Obligations.PcCountsTicks := by
  intro s k p n hk h hlow hsub hr hl hi
  induction n generalizing s p with
  | zero => exact ⟨p, hk, (Nat.mod_eq_of_lt p.value.isLt).symm⟩
  | succ n ih =>
    have hk' : s.tick.components[k]? = some (.pc p.ticked) := (lookup_eq_ok.mp (lookup_tick_pc (lookup_ofTop hk) hsub)).2
    obtain ⟨p', hp', hvalue⟩ :=
      ih s.tick p.ticked hk' (Pc.ticked_width h) (levelIs_pc.mpr Pc.ticked_prev) hsub hr hl hi
    refine ⟨p', hp', ?_⟩
    rw [hvalue, Pc.ticked_value_of_increment h (levelIs_pc.mp hlow) hr hl hi, BitVec.toNat_add, Nat.mod_add_mod]
    simp [Nat.add_comm n, Nat.add_assoc]

/-- Settles O38: the answer is the bits of the count. -/
theorem pcGetOutputReturnsTheCount : Obligations.PcGetOutputReturnsTheCount :=
  ⟨fun _ _ _ hk h => exec_pcGetOutput (lookup_ofTop hk) h, by decide⟩

end Sys2Proof.Proofs
end

section
/-! SUPPORT. A name that stands for no component an operation may be applied to has the operation refused, whatever the operation, and
the settlement of the obligation on owned components. -/

namespace Sys2Proof.Machine

open Sys2Proof

/-- The lookup of a component owned by another is refused as such (R186, R206). -/
theorem lookup_owned {s : State} {c : Ref} (h : s.owned c = true) : s.lookup c = .error .ownedComponent := by
  obtain ⟨top, path⟩ := c
  unfold State.owned at h
  unfold State.lookup
  cases hk : s.components[top]? with
  | none => simp [hk] at h
  | some comp =>
    cases path with
    | nil => simp [hk] at h
    | cons j path =>
      obtain ⟨K, hK⟩ : ∃ K, comp.kind.along (j :: path) = some K := by simpa [hk, Option.isSome_iff_exists] using h
      simp only [hK]

theorem exec_clockSubscribe_error {s : State} {cs : List Ref} {r : Refusal} (h : subscriberNumbers s cs = .error r) :
    exec (.clockSubscribe cs) s = .refused r := by
  simp [exec, execClockSubscribe, h]

section error

variable {s : State} {c : Ref} {r : Refusal} (hl : s.lookup c = .error r)
include hl

theorem onCell_error {f : Cell → Result} : onCell c s f = .refused r := by simp [onCell, hl]

theorem onBit_error {f : LoadableBit → Result} : onBit c s f = .refused r := by simp [onBit, hl]

theorem onReg_error {f : Register → Result} : onReg c s f = .refused r := by simp [onReg, hl]

theorem onRam_error {X : Level} {f : Ram → Result} : onRam X c s f = .refused r := by simp [onRam, hl]

theorem onPc_error {f : Pc → Result} : onPc c s f = .refused r := by simp [onPc, hl]

/-- The first name that is refused decides the refusal of a list of names. -/
theorem subscriberNumbers_cons_error (cs : List Ref) : subscriberNumbers s (c :: cs) = .error r := by
  simp [subscriberNumbers, hl]

/-- The lookup of the one component that an operation names comes first: where it is refused, so is the operation. -/
theorem exec_of_lookup_error {i : Instr} (hrefs : i.refs = [c]) : exec i s = .refused r := by
  cases i
  case clockTick | clockElapsedTicks => cases hrefs
  case clockSubscribe cs =>
    obtain rfl : cs = [c] := hrefs
    exact exec_clockSubscribe_error (subscriberNumbers_cons_error hl [])
  all_goals obtain rfl := List.singleton_inj.mp hrefs
  case cellSetInput | cellRecompute | cellGetOutput | cellOnClock => exact onCell_error hl
  case bitSetInput | bitRecompute | bitGetOutput | bitOnClock => exact onBit_error hl
  case regSetInput | regRecompute | regGetOutput | regOnClock => exact onReg_error hl
  case pcSetInput | pcRecompute | pcGetOutput | pcOnClock => exact onPc_error hl
  all_goals exact onRam_error hl

end error

end Sys2Proof.Machine

namespace Sys2Proof.Proofs

open Sys2Proof Sys2Proof.Machine

/-- Settles O54: every operation looks up the component it names, and the lookup of an owned one is refused. -/
theorem ownedComponentsAreRefused : Obligations.OwnedComponentsAreRefused :=
  fun _ _ _ hrefs ho => exec_of_lookup_error (lookup_owned ho) hrefs

end Sys2Proof.Proofs
end

section
/-! SUPPORT. The numbers of a list of names that begins with top-level components, and the settlement of the obligations on the
Clock. -/

namespace Sys2Proof.Machine

open Sys2Proof

/-- Names of components that exist contribute their numbers in order; the names after them decide the outcome (R180). -/
theorem subscriberNumbers_ofTop_append {s : State} {ks : List Nat} (hks : ∀ k ∈ ks, k < s.components.length)
    (cs : List Ref) :
    subscriberNumbers s (ks.map Ref.ofTop ++ cs) = (subscriberNumbers s cs).map (ks ++ ·) := by
  induction ks with
  | nil => cases h : subscriberNumbers s cs <;> simp [Except.map, h]
  | cons k ks ih =>
    obtain ⟨hk, hks⟩ := List.forall_mem_cons.mp hks
    have hl := lookup_ofTop (List.getElem?_eq_getElem hk)
    rw [List.map_cons, List.cons_append, subscriberNumbers, hl, ih hks]
    cases subscriberNumbers s cs <;> rfl

/-- The numbers of top-level components that exist. -/
theorem subscriberNumbers_ofTop {s : State} {ks : List Nat} (hks : ∀ k ∈ ks, k < s.components.length) :
    subscriberNumbers s (ks.map Ref.ofTop) = .ok ks := by
  simpa [subscriberNumbers, Except.map] using subscriberNumbers_ofTop_append hks []

theorem exec_clockSubscribe_ok {s : State} {cs : List Ref} {ks : List Nat} (h : subscriberNumbers s cs = .ok ks) :
    exec (.clockSubscribe cs) s =
      .next { s with clock := ⟨s.clock.elapsedTicks, s.clock.subscribers ++ ks⟩, reply := .done } := by
  simp [exec, execClockSubscribe, h]

end Sys2Proof.Machine

namespace Sys2Proof.Proofs

open Sys2Proof Sys2Proof.Machine

/-- Settles O42: the names of components that exist give their numbers, and an owned one after them a refusal. -/
theorem subscribeAppendsInOrder : Obligations.SubscribeAppendsInOrder := by
  intro s ks hks
  refine ⟨exec_clockSubscribe_ok (subscriberNumbers_ofTop hks), fun c cs ho => exec_clockSubscribe_error ?_⟩
  rw [subscriberNumbers_ofTop_append hks, subscriberNumbers_cons_error (lookup_owned ho)]
  rfl

/-- Settles O44: the law of one TICK, component by component (`tick_component`). -/
theorem tickClocksEverySubscriber : Obligations.TickClocksEverySubscriber := by
  refine fun s => ⟨s.tick.components, rfl, tick_length s, fun k comp hk => ?_⟩
  rw [tick_component, hk, Option.map_some]

/-- Settles O46: a TICK asks of each component only whether it is subscribed, which a permutation does not change. -/
theorem tickDoesNotDependOnTheOrder : Obligations.TickDoesNotDependOnTheOrder := by
  intro s subs hperm
  apply List.ext_getElem?
  intro k
  simp only [tick_component, hperm.mem_iff]

/-- Settles O47: the last edge of the TICK is a falling one; at level 1 the first is no rising edge, and the falling one commits
nothing in any case. -/
theorem tickLeavesSubscribersLow : Obligations.TickLeavesSubscribersLow := by
  intro s k comp hk hsub
  have htick : s.tick.components[k]? = some ((comp.onClock true).onClock false) :=
    (lookup_eq_ok.mp (lookup_tick (lookup_ofTop hk) hsub)).2
  refine ⟨_, htick, onClock_levelIs _ false, fun hw hhigh => ?_⟩
  calc ((comp.onClock true).onClock false).visible
    _ = (comp.onClock true).visible := onClock_visible_hold (onClock_wf hw true) (.inl rfl)
    _ = comp.visible := onClock_visible_hold hw (.inr hhigh)

/-- Settles O45: the answer is the count, and a read writes the reply only. -/
theorem elapsedTicksReturnsTheCount : Obligations.ElapsedTicksReturnsTheCount := fun _ => rfl

end Sys2Proof.Proofs
end

section
/-! SUPPORT. A well-shaped operation on components of its kind completes, as a write or as a read, and the settlement of the
obligations on the condition InvalidInputShape. -/

namespace Sys2Proof.Machine

open Sys2Proof

/-! ### Operations on one component -/

section component

variable {s : State} {c : Ref}

theorem ramRecompute_eq {X : Level} {m : Ram} (hl : s.lookup c = .ok (.ram m)) (hX : m.level = X) :
    ramRecompute X c s = .next (s.put c.top (.ram m)) := by
  subst hX
  exact onRam_eq _ hl

theorem ramSetInput_eq {X : Level} {m : Ram} (hl : s.lookup c = .ok (.ram m)) (hX : m.level = X) {w a : Bits}
    (h : w.length = 16 ∧ a.length = X.addrWidth) (load : Bit) :
    ramSetInput X c w a load s = .next (s.put c.top (.ram (m.setInput w a load))) :=
  (exec_levelSetInput ..).symm.trans (exec_ramSetInput hl hX h.1 h.2 load)

variable {i : Instr} {comp : Component} (hrefs : i.refs = [c]) (hl : s.lookup c = .ok comp) (hf : i.fits comp = true)
  (hs : i.shapesOk = true)
include hrefs hl hf hs

/-- The converse of `Completes.wrote`: a write whose operands have their lengths takes place (R86, R203). -/
theorem exec_of_write (hr : i.reads = false) (hsub : ∀ cs, i ≠ .clockSubscribe cs) :
    exec i s = .next (s.put c.top (i.act comp)) := by
  cases i
  case clockTick | clockElapsedTicks => cases hrefs
  case clockSubscribe cs => exact absurd rfl (hsub cs)
  all_goals
    obtain rfl := List.singleton_inj.mp hrefs
    cases comp <;>
      simp only [Instr.fits, Instr.shapesOk, Instr.reads, Bool.and_eq_true, beq_iff_eq, reduceCtorEq] at hf hs hr
  case cellSetInput | cellRecompute | cellOnClock => exact onCell_eq _ hl
  case bitSetInput | bitRecompute | bitOnClock => exact onBit_eq _ hl
  case regSetInput => exact exec_regSetInput hl hf _
  case regRecompute | regOnClock => exact onReg_eq _ hl
  case pcSetInput => exact exec_pcSetInput hl hs _ _ _
  case pcRecompute | pcOnClock => exact onPc_eq _ hl
  case ram8Recompute | ram64Recompute | ram512Recompute | ram4kRecompute | ram16kRecompute => exact ramRecompute_eq hl hf
  case ram8OnClock | ram64OnClock | ram512OnClock | ram4kOnClock | ram16kOnClock => exact ramOnClock_eq _ hl hf
  all_goals exact ramSetInput_eq hl hf hs _

/-- The converse of `Completes.read`: a read whose operands have their lengths returns a value (R68, R203). -/
theorem exec_of_read (hr : i.reads = true) :
    ∃ r, exec i s = .next (s.answer r) ∧ ∀ expected actual, r ≠ .invalidInputShape expected actual := by
  cases i
  case clockElapsedTicks => cases hrefs
  case clockSubscribe | clockTick => cases hr
  all_goals
    obtain rfl := List.singleton_inj.mp hrefs
    cases comp <;> simp only [Instr.fits, Instr.shapesOk, Instr.reads, beq_iff_eq, reduceCtorEq] at hf hs hr
  case cellGetOutput => exact ⟨_, onCell_eq _ hl, by simp⟩
  case bitGetOutput => exact ⟨_, onBit_eq _ hl, by simp⟩
  case regGetOutput => exact ⟨_, onReg_eq _ hl, by simp⟩
  case pcGetOutput => exact ⟨_, onPc_eq _ hl, by simp⟩
  all_goals exact ⟨_, ramGetOutput_eq hl hf hs, by simp⟩

end component

/-! ### The components that an operation names -/

section named

variable {i : Instr} {s : State} (hw : i.wellFormed = true) (hs : s.serves i = true)
include hw hs

/-- Each name of a well-formed operation that the instance serves is the name of a top-level component of its kind. -/
theorem lookup_of_serves {c : Ref} (hc : c ∈ i.refs) : ∃ comp, s.lookup c = .ok comp ∧ i.fits comp = true := by
  simp only [Instr.wellFormed, Bool.and_eq_true, List.all_eq_true, beq_iff_eq] at hw
  have hserved := List.all_eq_true.mp hs c hc
  cases hk : s.components[c.top]? with
  | none => simp [hk] at hserved
  | some comp => exact ⟨comp, lookup_eq_ok.mpr ⟨hw.1 c hc, hk⟩, by simpa [hk] using hserved⟩

/-- An operation on one component completes, as the write or the read that it is, without the condition. -/
theorem exec_completes_of_refs {c : Ref} (hrefs : i.refs = [c]) (hsub : ∀ cs, i ≠ .clockSubscribe cs) :
    ∃ t, exec i s = .next t ∧ ∀ expected actual, t.reply ≠ .invalidInputShape expected actual := by
  obtain ⟨comp, hl, hf⟩ := lookup_of_serves hw hs (c := c) (by simp [hrefs])
  have hshapes : i.shapesOk = true := (Bool.and_eq_true_iff.mp hw).2
  cases hr : i.reads with
  | false => exact ⟨_, exec_of_write hrefs hl hf hshapes hr hsub, by simp⟩
  | true =>
    obtain ⟨r, hexec, hclean⟩ := exec_of_read hrefs hl hf hshapes hr
    exact ⟨_, hexec, hclean⟩

end named

/-- Names whose lookup succeeds give their numbers in order (R180). -/
theorem subscriberNumbers_of_lookup {s : State} {cs : List Ref} (h : ∀ c ∈ cs, ∃ comp, s.lookup c = .ok comp) :
    subscriberNumbers s cs = .ok (cs.map Ref.top) := by
  induction cs with
  | nil => rfl
  | cons c cs ih =>
    obtain ⟨⟨comp, hl⟩, hcs⟩ := List.forall_mem_cons.mp h
    simp [subscriberNumbers, hl, ih hcs]

end Sys2Proof.Machine

namespace Sys2Proof.Proofs

open Sys2Proof Sys2Proof.Machine

/-- Settles O51: of the ways an operation completes only a failing shape check has this reply, and it writes the reply alone. -/
theorem raisedConditionWritesNothing : Obligations.RaisedConditionWritesNothing := by
  intro i s t expected actual h hraised
  cases exec_next h with
  | raised c e a hc hp hck hne =>
    obtain ⟨rfl, rfl⟩ : e = expected ∧ a = actual := by simpa using hraised
    exact ⟨hck, hne, rfl⟩
  | read c comp r hc hp hk hf hr hn => exact absurd hraised (hn expected actual)
  | wrote | subscribed | ticked | counted => cases hraised

/-- Settles O53: TICK and ELAPSED_TICKS need nothing, SUBSCRIBE that its names stand for components, and any other operation that
its one component is of its kind and its operands have their lengths. -/
theorem wellShapedOperationsComplete : Obligations.WellShapedOperationsComplete := by
  intro i s hw hs
  cases i
  case clockTick | clockElapsedTicks => exact ⟨_, rfl, by simp⟩
  case clockSubscribe cs =>
    have hcs : ∀ c ∈ cs, ∃ comp, s.lookup c = .ok comp := fun c hc => (lookup_of_serves hw hs hc).imp fun _ => And.left
    exact ⟨_, exec_clockSubscribe_ok (subscriberNumbers_of_lookup hcs), by simp⟩
  all_goals exact exec_completes_of_refs hw hs rfl (by simp)

end Sys2Proof.Proofs
end

section
/-! SUPPORT. The instance that construction gives, component by component, and the outputs under a run of operations that bring no
edge; the settlement of the obligations on the two. -/

namespace Sys2Proof.Machine

open Sys2Proof

/-! ### Construction -/

theorem construct_zeroWidth {kinds : List Kind} (h : .reg 0 ∈ kinds) : construct kinds = .error .zeroWidthRegister :=
  if_pos h

theorem construct_ok {kinds : List Kind} (h : .reg 0 ∉ kinds) :
    construct kinds = .ok ⟨kinds.map Component.init, Clock.init, [], .done⟩ := if_neg h

/-- Construction gives the kind asked for. -/
@[simp] theorem Component.init_kind (K : Kind) : (Component.init K).kind = K := by
  cases K <;> simp [Component.init, Component.kind, Ram.init]

@[simp] theorem map_init_kind (kinds : List Kind) : (kinds.map Component.init).map Component.kind = kinds := by
  simp [Function.comp_def]

/-- A constructed component is the initial one of its own kind. -/
theorem eq_init_of_mem {kinds : List Kind} {comp : Component} (h : comp ∈ kinds.map Component.init) :
    comp = Component.init comp.kind := by
  obtain ⟨K, -, rfl⟩ := List.mem_map.mp h
  rw [Component.init_kind]

theorem Register.mem_init {n : Nat} {b : LoadableBit} (h : b ∈ (Register.init n).bits) : b = LoadableBit.init :=
  List.eq_of_mem_replicate h

theorem Pc.init_value : Pc.init.value = 0 := by decide

/-! ### Outputs without an edge -/

/-- An operation that brings no edge leaves every output (R72, R225): the component it writes keeps its committed value. -/
theorem completes_outputs {i : Instr} {s t : State} (h : Completes i s t) (hw : s.wf = true) (hi : i.clocks = false) :
    t.outputs = s.outputs := by
  cases h with
  | read | raised | subscribed | counted => rfl
  | wrote c comp hc hp hk hf hs hr => exact put_outputs hk (act_visible hf (wf_component hw hk) hi)
  | ticked ht => subst ht; cases hi

/-- A run that completes completes its first operation, and the others from there. -/
theorem perform_cons_next {i : Instr} {is : List Instr} {s u : State} (h : perform (i :: is) s = .next u) :
    ∃ t, Completes i s t ∧ perform is t = .next u := by
  rw [perform] at h
  split at h
  next t ht => exact ⟨t, exec_next ht, h⟩
  · cases h
  · cases h

end Sys2Proof.Machine

namespace Sys2Proof.Proofs

open Sys2Proof Sys2Proof.Machine

/-- Settles O10: every component of the constructed instance is the initial one of its kind, whose fields are read off. -/
theorem constructionIsAllZero : Obligations.ConstructionIsAllZero := by
  refine fun kinds => ⟨construct_zeroWidth, fun h => ⟨_, construct_ok h, map_init_kind kinds, rfl, rfl, rfl, ?_⟩⟩
  refine ⟨fun c hc => ?_, fun b hb => ?_, fun r hr => ?_, fun m hm => ?_, fun p hp => ?_⟩
  · exact Component.cell.inj (eq_init_of_mem hc)
  · exact Component.bit.inj (eq_init_of_mem hb)
  · obtain ⟨n, rfl⟩ : ∃ n, r = Register.init n := ⟨_, Component.reg.inj (eq_init_of_mem hr)⟩
    exact fun _ => Register.mem_init
  · obtain ⟨X, rfl⟩ : ∃ X, m = Ram.init X := ⟨_, Component.ram.inj (eq_init_of_mem hm)⟩
    exact ⟨rfl, List.length_replicate, uint_replicate_false _, rfl, rfl, fun _ => memRead_nil _⟩
  · obtain rfl : p = Pc.init := Component.pc.inj (eq_init_of_mem hp)
    exact ⟨rfl, rfl, rfl, rfl, Pc.init_value, Register.init_width 16, fun _ => Register.mem_init⟩

/-- Settles O49: by induction on the operations; each keeps the outputs and the invariant, which the next one needs. -/
theorem outputsChangeOnlyAtAnEdge : Obligations.OutputsChangeOnlyAtAnEdge := by
  intro is
  induction is with
  | nil =>
    intro s t _ _ h
    obtain rfl : s = t := Host.Outcome.next.inj h
    rfl
  | cons i is ih =>
    intro s u hw hq h
    obtain ⟨hi, his⟩ := List.forall_mem_cons.mp hq
    obtain ⟨t, hc, hrest⟩ := perform_cons_next h
    calc u.outputs
      _ = t.outputs := ih t u (completes_wf hc hw) his hrest
      _ = s.outputs := completes_outputs hc hw hi

end Sys2Proof.Proofs
end
